-- ==== Sys2Proof/Word.lean ====
section
/-! DEFINITION. The word types of the block (spec/00_scope.md R8, R9): bytes, `u32`, `u64`, and the 72-bit command word. -/

namespace Sys2Proof

/-- A byte, an unsigned integer 0 to 255 (R9). -/
abbrev Byte := BitVec 8

/-- `u32` of R9. -/
abbrev U32 := BitVec 32

/-- `u64` of R9. -/
abbrev U64 := BitVec 64

/-- One command word `cmd[71:0]` (R75). -/
abbrev CmdWord := BitVec 72

end Sys2Proof
end

