-- ==== Sys2Proof/Syntax.lean ====
section
/-! DEFINITION. The commands of the block as syntax: one constructor per row of spec/opcode_table.json
(spec/30_encoding.md R76), each operand with exactly the bits its format gives it (R77). -/

namespace Sys2Proof

/-- The thirteen commands of R76. -/
inductive Instr where
  /-- `SYS.RDREG n`, format R (R190). -/
  | sysRdreg (n : Byte)
  /-- `CE.INIT`, format N (R110). -/
  | ceInit
  /-- `CE.UPDATE b`, format B (R111). -/
  | ceUpdate (b : Byte)
  /-- `CE.FINAL`, format N (R112). -/
  | ceFinal
  /-- `RF.START len`, format Q (R131). -/
  | rfStart (len : U64)
  /-- `RF.DATA b`, format B (R133). -/
  | rfData (b : Byte)
  /-- `SP.PUSH b`, format B (R152). -/
  | spPush (b : Byte)
  /-- `SP.DECODE1`, format N (R154). -/
  | spDecode1
  /-- `SP.DECODEALL`, format N (R159). -/
  | spDecodeall
  /-- `SP.VERIFY`, format N (R160). -/
  | spVerify
  /-- `SP.END`, format N (R161). -/
  | spEnd
  /-- `SP.CLEAR`, format N (R163). -/
  | spClear
  /-- `SP.SETMODE s`, format M; `strict` is `s = 1` (R162). -/
  | spSetmode (strict : Bool)
deriving DecidableEq, Repr

/-- The units of the block, numbered by `op[7:4]` (R12, R75). -/
inductive HwUnit where
  /-- System, 0. -/
  | sys
  /-- Checksum Engine, 1. -/
  | ce
  /-- Record Framer, 2. -/
  | rf
  /-- Stream Parser, 3. -/
  | sp
deriving DecidableEq, Repr

end Sys2Proof
end

