-- ==== Sys2Proof/Decode.lean ====
section
/-! DEFINITION. Command words and instructions (spec/30_encoding.md R75 to R77, R81, R82): the fields of a word,
the decoder, total on every 72-bit word and refusing reserved opcodes by name, and the encoder. -/

namespace Sys2Proof

/-- `cmd[71:64]` (R75). -/
def opcodeField (w : CmdWord) : Byte := w.extractLsb' 64 8

/-- `cmd[63:0]` (R75). -/
def argField (w : CmdWord) : U64 := w.extractLsb' 0 64

/-- The operand of formats B and R: `arg[7:0]` (R77). -/
def byteOperand (arg : U64) : Byte := arg.extractLsb' 0 8

/-- The operand of format M: `arg[0]` (R77). -/
def modeOperand (arg : U64) : Bool := arg.getLsbD 0

/-- Why a word is no command. -/
inductive DecodeError where
  /-- The opcode is none of the thirteen of R76 (R81). -/
  | reservedOpcode (op : Byte)
deriving DecidableEq, Repr

/-- The command that opcode `op` names with argument `arg`: the opcode map of R76 and the operand formats of R77.
Bits a format ignores are not looked at (R82). -/
def decodeFields (op : Byte) (arg : U64) : Except DecodeError Instr :=
  match op.toNat with
  | 0x01 => .ok (.sysRdreg (byteOperand arg))
  | 0x10 => .ok .ceInit
  | 0x11 => .ok (.ceUpdate (byteOperand arg))
  | 0x12 => .ok .ceFinal
  | 0x20 => .ok (.rfStart arg)
  | 0x21 => .ok (.rfData (byteOperand arg))
  | 0x30 => .ok (.spPush (byteOperand arg))
  | 0x31 => .ok .spDecode1
  | 0x32 => .ok .spDecodeall
  | 0x33 => .ok .spVerify
  | 0x34 => .ok .spEnd
  | 0x35 => .ok .spClear
  | 0x36 => .ok (.spSetmode (modeOperand arg))
  | _ => .error (.reservedOpcode op)

/-- The decoder, total on every word (R75, R76, R81). -/
def decode (w : CmdWord) : Except DecodeError Instr :=
  decodeFields (opcodeField w) (argField w)

/-- The opcode of a command (R76). -/
def opcodeOf : Instr → Byte
  | .sysRdreg _ => 0x01
  | .ceInit => 0x10
  | .ceUpdate _ => 0x11
  | .ceFinal => 0x12
  | .rfStart _ => 0x20
  | .rfData _ => 0x21
  | .spPush _ => 0x30
  | .spDecode1 => 0x31
  | .spDecodeall => 0x32
  | .spVerify => 0x33
  | .spEnd => 0x34
  | .spClear => 0x35
  | .spSetmode _ => 0x36

/-- The 64-bit argument of a command, ignored bits zero (R77; R82: "An assembler writes them as zero"). -/
def argOf : Instr → U64
  | .sysRdreg n => n.setWidth 64
  | .ceUpdate b => b.setWidth 64
  | .rfStart len => len
  | .rfData b => b.setWidth 64
  | .spPush b => b.setWidth 64
  | .spSetmode strict => if strict then 1 else 0
  | .ceInit => 0
  | .ceFinal => 0
  | .spDecode1 => 0
  | .spDecodeall => 0
  | .spVerify => 0
  | .spEnd => 0
  | .spClear => 0

/-- The command word of a command, opcode first (R75). -/
def encode (i : Instr) : CmdWord := opcodeOf i ++ argOf i

/-- The argument bits a command looks at, one bit of the mask per bit of `arg` (R77). -/
def usedArgBits : Instr → U64
  | .sysRdreg _ => 0xFF
  | .ceUpdate _ => 0xFF
  | .rfStart _ => 0xFFFFFFFFFFFFFFFF
  | .rfData _ => 0xFF
  | .spPush _ => 0xFF
  | .spSetmode _ => 1
  | .ceInit => 0
  | .ceFinal => 0
  | .spDecode1 => 0
  | .spDecodeall => 0
  | .spVerify => 0
  | .spEnd => 0
  | .spClear => 0

/-- The unit of a command, `op[7:4]` (R75). -/
def unitOf (i : Instr) : HwUnit :=
  match ((opcodeOf i).extractLsb' 4 4).toNat with
  | 0 => .sys
  | 1 => .ce
  | 2 => .rf
  | _ => .sp

/-- The 72-bit word whose low `nbits` bits are `w` and whose other bits are zero, numbered as spec/opcode_table.json
numbers them: a command is one word, its bit 0 the least significant bit of `arg` (R75). -/
def tableWord (nbits w : Nat) : CmdWord := BitVec.ofNat 72 (w % 2 ^ nbits)

/-- What the decoder reads from a word given as a number. -/
def decodeTableWord (nbits w : Nat) : Option Instr :=
  match decode (tableWord nbits w) with
  | .ok i => some i
  | .error _ => none

end Sys2Proof
end

