-- ==== Sys2Proof/Machine/Bytes.lean ====
section
/-! DEFINITION. Byte sequences (spec/00_scope.md R10) and the byte order of every wire field, little-endian
(spec/20_memory.md R54). -/

namespace Sys2Proof.Machine

/-- `le32(v)`, 4 bytes, least significant first (R10). -/
def le32 (v : U32) : List Byte :=
  [v.extractLsb' 0 8, v.extractLsb' 8 8, v.extractLsb' 16 8, v.extractLsb' 24 8]

/-- `le64(v)`, 8 bytes, least significant first (R10). -/
def le64 (v : U64) : List Byte :=
  [v.extractLsb' 0 8, v.extractLsb' 8 8, v.extractLsb' 16 8, v.extractLsb' 24 8,
   v.extractLsb' 32 8, v.extractLsb' 40 8, v.extractLsb' 48 8, v.extractLsb' 56 8]

/-- The unsigned number a byte sequence holds, first byte least significant: `s[0] + s[1]*2^8 + ...`.
On 8 bytes it is `from_le64`, on 4 `from_le32` (R10). -/
def fromLe : List Byte → Nat
  | [] => 0
  | b :: rest => b.toNat + 256 * fromLe rest

/-- `s[i..j)` (R10). -/
def slice (s : List Byte) (i j : Nat) : List Byte := (s.drop i).take (j - i)

/-- `|s|` as a `u64`, the form a length has in a register or a response (R33, R78). -/
def countU64 (s : List Byte) : U64 := BitVec.ofNat 64 s.length

end Sys2Proof.Machine
end

