-- ==== Sys2Proof/Config.lean ====
section
/-! DEFINITION. What an implementation fixes: the one open parameter `BUF_CAP` (spec/00_scope.md R7). -/

namespace Sys2Proof

/-- The values `MAX_LEN = BUF_CAP - 16` may take: `0 .. 2^63 - 16`, which is exactly `16 <= BUF_CAP <= 2^63` (R7).
Holding `MAX_LEN` and not `BUF_CAP` makes an illegal capacity impossible to write.
DESIGN CHOICE, safe (log entry 1). -/
abbrev MaxLen := Fin 9223372036854775793

/-- `MAX_LEN` of the block at hand. It has no body: R7 and D14 leave `BUF_CAP` open, so no proof can see its value
and what is proved of it holds for every legal capacity. DESIGN CHOICE, safe (log entry 1). -/
opaque Config.maxLen : MaxLen

end Sys2Proof
end

