-- ==== Sys2Proof/Machine/State.lean ====
section
/-! DEFINITION. The state of the block (spec/10_state.md R20 to R33), its reset value (R39, R231), the response of a
command (spec/30_encoding.md R78, R80), and why a step could stop. -/

namespace Sys2Proof.Machine

/-- The phase of the framer, the 1-bit register `RF_PHASE` (R24). -/
inductive RfPhase where
  /-- 0: no record open. -/
  | idle
  /-- 1: a record is open. -/
  | payload
deriving DecidableEq, Repr

/-- The status of a response by name (R80); codes 0x7 and 0xC to 0xF have no name because they are never produced. -/
inductive Status where
  /-- 0x0: command done. -/
  | ok
  /-- 0x1 NONE: not enough bytes for a record, more may come. -/
  | noRecord
  /-- 0x2 EOF: end of input asserted and buffer empty. -/
  | eof
  /-- 0x3 FULL: the buffer is full, byte not taken. -/
  | full
  /-- 0x4 PROTO: not legal in the unit's present phase. -/
  | proto
  /-- 0x5 FAULTED: the parser is faulted. -/
  | faulted
  /-- 0x6 BADCMD: reserved opcode or unassigned register number. -/
  | badcmd
  /-- 0x8 TRUNC: leftover bytes at the end of input. -/
  | trunc
  /-- 0x9 CKLEN: length checksum differs. -/
  | cklen
  /-- 0xA CKPAY: payload checksum differs. -/
  | ckpay
  /-- 0xB SIZEOVF: length larger than `MAX_LEN`. -/
  | sizeovf
deriving DecidableEq, Repr

/-- The response of one command (R78). -/
structure Response where
  status : Status
  value : U64
  bytes : List Byte
  records : List (List Byte)
deriving DecidableEq, Repr

/-- What the host asks of the block (R58, R230): a command word on the command port, or an assertion of `rst`. -/
inductive PortEvent where
  /-- One command word offered on the command port. -/
  | command (w : CmdWord)
  /-- The reset input asserted and released. -/
  | rst
deriving DecidableEq, Repr

/-- The state: the ten registers of R20, the block's capacity, and the two ports. -/
structure State where
  /-- `CE_CRC` (R23). -/
  ceCrc : U32
  /-- `RF_PHASE` (R24). -/
  rfPhase : RfPhase
  /-- `RF_LEN` (R25). -/
  rfLen : U64
  /-- `RF_REM` (R26). -/
  rfRem : U64
  /-- `RF_CRC` (R27). -/
  rfCrc : U32
  /-- `SP_BUF`, oldest byte first (R28). -/
  spBuf : List Byte
  /-- `SP_OFFSET` (R29). -/
  spOffset : U64
  /-- `SP_STRICT` (R30). -/
  spStrict : Bool
  /-- `SP_EOI` (R31). -/
  spEoi : Bool
  /-- `SP_ERR` (R32). -/
  spErr : BitVec 4
  /-- `MAX_LEN = BUF_CAP - 16`, the parameter of R7, constant. DESIGN CHOICE, safe (log entry 1). -/
  maxLen : MaxLen
  /-- What the host has asked for and the block has not taken, oldest first. DESIGN CHOICE, safe (log entry 2). -/
  inbox : List PortEvent
  /-- The responses given, oldest first; read by no rule. DESIGN CHOICE, safe (log entry 3). -/
  outbox : List Response
deriving DecidableEq, Repr

/-- `BUF_CAP` (R7). -/
def State.bufCap (s : State) : Nat := s.maxLen.val + 16

/-- The block right after reset, for a given capacity: the values of R39 and R231; nothing asked, nothing answered. -/
def State.resetWith (m : MaxLen) : State where
  ceCrc := 0xFFFFFFFF
  rfPhase := .idle
  rfLen := 0
  rfRem := 0
  rfCrc := 0xFFFFFFFF
  spBuf := []
  spOffset := 0
  spStrict := false
  spEoi := false
  spErr := 0
  maxLen := m
  inbox := []
  outbox := []

/-- The block right after reset (R39, R231), its capacity the open parameter. -/
def State.reset : State := State.resetWith Config.maxLen

/-- Why the machine stops with a fault: never, so there is no constructor. "every command is total: it responds and
never hangs or corrupts state" (R244); a parser fault is the register `SP_ERR`, not a stop (R206). Safe (log entry 6). -/
inductive Fault where
deriving DecidableEq, Repr

/-- Why the model gives a command no meaning. -/
inductive Refusal where
  /-- Raised by `exec` for a command whose meaning is not written yet (safe); no arm of `exec` raises it now. -/
  | notModelled (mnemonic : String)
deriving DecidableEq, Repr

end Sys2Proof.Machine
end

