-- ==== Sys2Proof/Machine/Flags.lean ====
section
/-! DEFINITION. Status codes and their classes (spec/30_encoding.md R80, spec/60_exceptions.md R200), and the flag views
of the parser (spec/10_state.md R32, R33). The block has no arithmetic flags (R34). -/

namespace Sys2Proof.Machine

/-- The 4-bit code of a status (R80). -/
def Status.code : Status → BitVec 4
  | .ok => 0x0
  | .noRecord => 0x1
  | .eof => 0x2
  | .full => 0x3
  | .proto => 0x4
  | .faulted => 0x5
  | .badcmd => 0x6
  | .trunc => 0x8
  | .cklen => 0x9
  | .ckpay => 0xA
  | .sizeovf => 0xB

/-- The four kinds of outcome (R200). -/
inductive OutcomeKind where
  | success
  | noResult
  | refused
  | failure
deriving DecidableEq, Repr

/-- The kind of outcome a status tells (R80, R200). -/
def Status.kind : Status → OutcomeKind
  | .ok => .success
  | .noRecord => .noResult
  | .eof => .noResult
  | .full => .refused
  | .proto => .refused
  | .faulted => .refused
  | .badcmd => .refused
  | .trunc => .failure
  | .cklen => .failure
  | .ckpay => .failure
  | .sizeovf => .failure

/-- "The parser is faulted exactly when `SP_ERR != 0`" (R32). -/
def faulted (s : State) : Bool := s.spErr != 0

/-- The 1-bit value of `RF_PHASE` (R24). -/
def RfPhase.bit : RfPhase → BitVec 1
  | .idle => 0
  | .payload => 1

/-- The view `SP_CTRL`: bit 0 `SP_STRICT`, bit 1 `SP_EOI`, the rest zero (R33). -/
def spCtrl (s : State) : U64 :=
  (BitVec.ofBool s.spStrict).setWidth 64 ||| ((BitVec.ofBool s.spEoi).setWidth 64 <<< 1)

end Sys2Proof.Machine
end

