-- ==== Sys2Proof/Machine/Ops.lean ====
section
/-! DEFINITION. The shared operations over the state: answering and refusing (spec/00_scope.md R11), the buffer
(spec/20_memory.md R52), entering and leaving a parser fault (spec/60_exceptions.md R206, R207), reset
(spec/70_reset_and_hazards.md R230, R231), and taking what the host asks. -/

namespace Sys2Proof.Machine

/-- `respond(status)` with the fields left out zero and empty (R11). -/
def Response.bare (st : Status) : Response := ⟨st, 0, [], []⟩

/-- The response leaves the block, after every earlier one (R58). -/
def emit (s : State) (r : Response) : State := { s with outbox := s.outbox ++ [r] }

/-- A command ends: its new state and its response, given together (R56, R243). -/
def answer (p : State × Response) : Host.Outcome State Fault Refusal := .next (emit p.1 p.2)

/-- `refuse(status)`: "`respond(status)` with no state change at all" (R11). -/
def refuse (st : Status) (s : State) : State × Response := (s, Response.bare st)

/-- `respond(OK)` (R11). -/
def done (s : State) : State × Response := (s, Response.bare .ok)

/-- Well-formed buffer memory: at most `BUF_CAP` bytes (R28, R40). -/
def Memory.wf (s : State) : Bool := decide (s.spBuf.length ≤ s.bufCap)

/-- The append of `SP.PUSH` (R52, R152). -/
def appendByte (b : Byte) (s : State) : State := { s with spBuf := s.spBuf ++ [b] }

/-- The removal of a prefix of `total` bytes, and the cursor's advance modulo `2^64` (R29, R52, R156). -/
def consume (total : Nat) (s : State) : State :=
  { s with spBuf := s.spBuf.drop total, spOffset := s.spOffset + BitVec.ofNat 64 total }

/-- Fault entry, `fault(code)`: the code is latched and answered; everything else is kept (R11, R206). -/
def raiseFault (st : Status) (s : State) : State × Response :=
  ({ s with spErr := st.code }, Response.bare st)

/-- Fault exit, and the emptying of the parser: `SP_STRICT` is kept (R163, R207). -/
def clearParser (s : State) : State :=
  { s with spBuf := [], spOffset := 0, spEoi := false, spErr := 0 }

/-- The FAULTED test, which comes before every other test of an SP command (R164). -/
def unlessFaulted (s : State) (body : State × Response) : State × Response :=
  if faulted s then refuse .faulted s else body

/-- The reset input: every register to its reset value (R230, R231). The capacity is a constant; what was answered has
left the block and stays (R232); what the host has still to ask is the host's. DEDUCED, safe (log entry 7). -/
def applyReset (s : State) : State :=
  { State.resetWith s.maxLen with inbox := s.inbox, outbox := s.outbox }

/-- A reserved opcode: refused with BADCMD in every state, whatever `arg` holds (R81, R193). -/
def answerReserved (s : State) : Host.Outcome State Fault Refusal := answer (refuse .badcmd s)

/-- What the host asked first has been taken; `rest` is still to come (R58). -/
def takeEvent (rest : List PortEvent) (s : State) : State := { s with inbox := rest }

end Sys2Proof.Machine
end

