-- ==== Sys2Proof/Machine/Engine.lean ====
section
/-! DEFINITION. The commands of the Checksum Engine (spec/40_checksum_engine.md part 2). -/

namespace Sys2Proof.Machine

/-- `CE.INIT` (R110). -/
def execCeInit (s : State) : Host.Outcome State Fault Refusal :=
  answer (done { s with ceCrc := crcInit })

/-- `CE.UPDATE b` (R111). -/
def execCeUpdate (b : Byte) (s : State) : Host.Outcome State Fault Refusal :=
  answer (done { s with ceCrc := crcStep s.ceCrc b })

/-- `CE.FINAL` (R112): reads `CE_CRC` and does not change it. -/
def execCeFinal (s : State) : Host.Outcome State Fault Refusal :=
  let m := mask32 (s.ceCrc ^^^ 0xFFFFFFFF)
  answer (s, { Response.bare .ok with value := m.setWidth 64, bytes := le32 m })

end Sys2Proof.Machine
end

