-- ==== Sys2Proof/Machine/Framer.lean ====
section
/-! DEFINITION. The Record Framer (spec/41_record_framer.md): `encode_record` and the commands `RF.START`, `RF.DATA`. -/

namespace Sys2Proof.Machine

/-- The header of a record: the length and its masked checksum, 12 bytes (R70, R131). -/
def recordHeader (len : U64) : List Byte := le64 len ++ maskedChecksum (le64 len)

/-- The trailer of a record whose payload left the running value `c` (R131, R133). -/
def recordTrailer (c : U32) : List Byte := le32 (mask32 (c ^^^ 0xFFFFFFFF))

/-- `encode_record(p)`, for `|p| < 2^64` (R130). -/
def encodeRecord (p : List Byte) : List Byte :=
  recordHeader (countU64 p) ++ p ++ maskedChecksum p

/-- `RF.START len` (R131 accepted, R132 refused). -/
def execRfStart (len : U64) (s : State) : Host.Outcome State Fault Refusal :=
  match s.rfPhase with
  | .payload => answer (refuse .proto s)
  | .idle =>
    let opened := { s with rfLen := len, rfRem := len, rfCrc := crcInit }
    if len = 0 then
      answer ({ opened with rfPhase := .idle },
        { Response.bare .ok with bytes := recordHeader len ++ recordTrailer crcInit })
    else
      answer ({ opened with rfPhase := .payload },
        { Response.bare .ok with value := len, bytes := recordHeader len })

/-- `RF.DATA b` (R133 accepted, R134 refused). In PAYLOAD with no byte owed, which R40 rules out, it is refused as R26
says: `RF_REM` "never wraps, because `RF.DATA` is refused when it is 0" (log entry 9). -/
def execRfData (b : Byte) (s : State) : Host.Outcome State Fault Refusal :=
  match s.rfPhase with
  | .idle => answer (refuse .proto s)
  | .payload =>
    let c := crcStep s.rfCrc b
    let left := s.rfRem - 1
    let taken := { s with rfCrc := c, rfRem := left }
    if s.rfRem = 0 then answer (refuse .proto s)
    else if left = 0 then
      answer ({ taken with rfPhase := .idle },
        { Response.bare .ok with bytes := [b] ++ recordTrailer c })
    else
      answer (taken, { Response.bare .ok with value := left, bytes := [b] })

end Sys2Proof.Machine
end

