-- ==== Sys2Proof/Machine/Operands.lean ====
section
/-! DEFINITION. What commands read: a register by number (spec/43_system.md R191), and the fields of the record at the
cursor as slices of the buffer (spec/20_memory.md R52). -/

namespace Sys2Proof.Machine

/-- `reg(n)` of R191, none for an unassigned number (R192). -/
def regValue (s : State) (n : Byte) : Option U64 :=
  match n.toNat with
  | 0 => some (s.ceCrc.setWidth 64)
  | 1 => some (s.rfPhase.bit.setWidth 64)
  | 2 => some s.rfLen
  | 3 => some s.rfRem
  | 4 => some (s.rfCrc.setWidth 64)
  | 5 => some (countU64 s.spBuf)
  | 6 => some s.spOffset
  | 7 => some (spCtrl s)
  | 8 => some (s.spErr.setWidth 64)
  | 9 => some (BitVec.ofNat 64 s.bufCap)
  | _ => none

/-- `SP_BUF[i]`, none outside the valid indices (R52). -/
def readBuf (s : State) (i : Nat) : Option Byte := s.spBuf[i]?

/-- `buf[0..8)`, the length field (R52). -/
def lengthField (buf : List Byte) : List Byte := slice buf 0 8

/-- `buf[8..12)`, the stored length checksum (R52). -/
def lengthChecksumField (buf : List Byte) : List Byte := slice buf 8 12

/-- `buf[12..12+length)`, the payload (R52). -/
def payloadField (buf : List Byte) (length : Nat) : List Byte := slice buf 12 (12 + length)

/-- `buf[12+length..16+length)`, the stored payload checksum (R52). -/
def payloadChecksumField (buf : List Byte) (length : Nat) : List Byte :=
  slice buf (12 + length) (16 + length)

end Sys2Proof.Machine
end

