-- ==== Sys2Proof/Machine/Parser.lean ====
section
/-! DEFINITION. The Stream Parser (spec/42_stream_parser.md): `frame`, `verify`, and the seven SP commands. -/

namespace Sys2Proof.Machine

/-- The four cases of the frame-boundary detector (R151); lengths are natural numbers, so no sum can wrap. -/
inductive Frame where
  /-- Fewer than 8 bytes: the length is not known. -/
  | short
  /-- The length is larger than `MAX_LEN`. -/
  | tooLong (length : Nat)
  /-- The length is admitted and bytes are missing (`Partial`). -/
  | incomplete (length : Nat)
  /-- One record's worth of bytes is there. -/
  | whole (length : Nat)
deriving DecidableEq, Repr

/-- `frame(buf)`, its tests in the order of R151. -/
def frame (maxLen : Nat) (buf : List Byte) : Frame :=
  if buf.length < 8 then .short
  else
    let length := fromLe (lengthField buf)
    if maxLen < length then .tooLong length
    else if buf.length < 16 + length then .incomplete length
    else .whole length

/-- The three results of verification (R158). -/
inductive Verdict where
  | badLen
  | badPay
  | good
deriving DecidableEq, Repr

/-- `verify(buf, length)` (R158): the length checksum first, 4 bytes against 4 bytes. -/
def verify (buf : List Byte) (length : Nat) : Verdict :=
  if lengthChecksumField buf ≠ maskedChecksum (lengthField buf) then .badLen
  else if payloadChecksumField buf length ≠ maskedChecksum (payloadField buf length) then .badPay
  else .good

/-- Delivery of one record (R156). -/
def deliver (length : Nat) (s : State) : State × Response :=
  (consume (16 + length) s,
    { Response.bare .ok with
      value := BitVec.ofNat 64 (16 + length), records := [payloadField s.spBuf length] })

/-- Lacking bytes: the outcome depends on the end-of-input assertion (R157). -/
def lacking (s : State) : State × Response :=
  if s.spEoi then
    if s.spBuf = [] then (s, Response.bare .eof) else raiseFault .trunc s
  else (s, Response.bare .noRecord)

/-- The new state and the response of one `SP.DECODE1` (R154). -/
def decode1 (s : State) : State × Response :=
  unlessFaulted s <|
    match frame s.maxLen.val s.spBuf with
    | .tooLong _ => raiseFault .sizeovf s
    | .short => lacking s
    | .incomplete _ => lacking s
    | .whole length =>
      if s.spStrict then
        match verify s.spBuf length with
        | .badLen => raiseFault .cklen s
        | .badPay => raiseFault .ckpay s
        | .good => deliver length s
      else deliver length s

/-- The end of `SP.DECODEALL`: the last decode's status with what was collected before it (R159). -/
def finishAll (sum : U64) (recs : List (List Byte)) (p : State × Response) : State × Response :=
  (p.1, ⟨p.2.status, sum, [], recs⟩)

/-- The loop of `SP.DECODEALL` (R159), at most `fuel` records. "each OK iteration removes at least 16 bytes", so fuel
`|SP_BUF| / 16` never runs out before the loop ends by itself. DEDUCED, safe (log entry 11). -/
def decodeAllLoop : Nat → U64 → List (List Byte) → State → State × Response
  | 0, sum, recs, s => finishAll sum recs (decode1 s)
  | fuel + 1, sum, recs, s =>
    let p := decode1 s
    if p.2.status = .ok then
      decodeAllLoop fuel (sum + p.2.value) (recs ++ p.2.records) p.1
    else finishAll sum recs p

/-- The new state and the response of one `SP.DECODEALL` (R159). -/
def decodeAll (s : State) : State × Response :=
  unlessFaulted s (decodeAllLoop (s.spBuf.length / 16) 0 [] s)

/-- `SP.PUSH b` (R152 accepted, R153 refused, tested in its order). -/
def execSpPush (b : Byte) (s : State) : Host.Outcome State Fault Refusal :=
  answer <| unlessFaulted s <|
    if s.spEoi then refuse .proto s
    else if s.spBuf.length < s.bufCap then
      let t := appendByte b s
      (t, { Response.bare .ok with value := countU64 t.spBuf })
    else refuse .full s

/-- `SP.DECODE1` (R154). -/
def execSpDecode1 (s : State) : Host.Outcome State Fault Refusal := answer (decode1 s)

/-- `SP.DECODEALL` (R159). -/
def execSpDecodeall (s : State) : Host.Outcome State Fault Refusal := answer (decodeAll s)

/-- `SP.VERIFY` (R160): reports and changes nothing. -/
def execSpVerify (s : State) : Host.Outcome State Fault Refusal :=
  answer <| unlessFaulted s <|
    match frame s.maxLen.val s.spBuf with
    | .short => (s, Response.bare .noRecord)
    | .incomplete _ => (s, Response.bare .noRecord)
    | .tooLong _ => (s, Response.bare .sizeovf)
    | .whole length =>
      match verify s.spBuf length with
      | .badLen => (s, Response.bare .cklen)
      | .badPay => (s, Response.bare .ckpay)
      | .good => (s, { Response.bare .ok with value := BitVec.ofNat 64 (16 + length) })

/-- `SP.END` (R161). -/
def execSpEnd (s : State) : Host.Outcome State Fault Refusal :=
  answer (unlessFaulted s (done { s with spEoi := true }))

/-- `SP.CLEAR` (R163): always accepted. -/
def execSpClear (s : State) : Host.Outcome State Fault Refusal :=
  answer (done (clearParser s))

/-- `SP.SETMODE s` (R162). -/
def execSpSetmode (strict : Bool) (s : State) : Host.Outcome State Fault Refusal :=
  answer (unlessFaulted s (done { s with spStrict := strict }))

end Sys2Proof.Machine
end

