-- ==== Sys2Proof/Machine/System.lean ====
section
/-! DEFINITION. The system command (spec/43_system.md). -/

namespace Sys2Proof.Machine

/-- `SYS.RDREG n` (R190, R192). -/
def execSysRdreg (n : Byte) (s : State) : Host.Outcome State Fault Refusal :=
  match regValue s n with
  | some v => answer (s, { Response.bare .ok with value := v })
  | none => answer (refuse .badcmd s)

end Sys2Proof.Machine
end

