-- ==== Sys2Proof/Machine/Dispatch.lean ====
section
/-! DEFINITION. The dispatch of commands to their meanings, one arm per row of spec/opcode_table.json. -/

namespace Sys2Proof.Machine

def exec (i : Instr) (s : State) : Host.Outcome State Fault Refusal :=
  match i with
  | .sysRdreg n => Sys2Proof.Machine.execSysRdreg n s
  | .ceInit => Sys2Proof.Machine.execCeInit s
  | .ceUpdate b => Sys2Proof.Machine.execCeUpdate b s
  | .ceFinal => Sys2Proof.Machine.execCeFinal s
  | .rfStart len => Sys2Proof.Machine.execRfStart len s
  | .rfData b => Sys2Proof.Machine.execRfData b s
  | .spPush b => Sys2Proof.Machine.execSpPush b s
  | .spDecode1 => Sys2Proof.Machine.execSpDecode1 s
  | .spDecodeall => Sys2Proof.Machine.execSpDecodeall s
  | .spVerify => Sys2Proof.Machine.execSpVerify s
  | .spEnd => Sys2Proof.Machine.execSpEnd s
  | .spClear => Sys2Proof.Machine.execSpClear s
  | .spSetmode strict => Sys2Proof.Machine.execSpSetmode strict s

end Sys2Proof.Machine
end

