-- ==== Sys2Proof/Machine/Step.lean ====
section
/-! DEFINITION. One step of the block: it takes what the host asked first (spec/20_memory.md R58,
spec/70_reset_and_hazards.md R230, R243). -/

namespace Sys2Proof.Machine

/-- One step. Nothing asked: the block is quiescent and "its state does not change until the next command or reset"
(R243). Reset asked: R230. A command: its word is decoded and executed at once (R22, R56); a reserved opcode is refused
with BADCMD (R193). -/
def step (s : State) : Host.Outcome State Fault Refusal :=
  match s.inbox with
  | [] => .next s
  | .rst :: rest => .next (applyReset (takeEvent rest s))
  | .command w :: rest =>
    match decode w with
    | .ok i => exec i (takeEvent rest s)
    | .error (.reservedOpcode _) => answerReserved (takeEvent rest s)

/-- `s` with the word of `nbits` bits `w` offered on the command port before anything else, so that the next step takes
it (log entry 2). -/
def State.withFetchWord (s : State) (nbits w : Nat) : State :=
  { s with inbox := .command (tableWord nbits w) :: s.inbox }

end Sys2Proof.Machine
end

