-- ==== Sys2Proof/Machine/Pseudo.lean ====
section
/-! DEFINITION. What the spec's statements about command sequences and whole streams are said with: sequences of
commands, the pseudo-commands (spec/30_encoding.md R85), the three streams (spec/20_memory.md R64), the source's pure
decode functions (spec/42_stream_parser.md R150, R172), and the host's procedure of R166. No command calls these. -/

namespace Sys2Proof.Machine

/-- Commands executed one after another (R58). -/
def runCmds : List Instr → State → Host.Outcome State Fault Refusal
  | [], s => .next s
  | i :: rest, s =>
    match exec i s with
    | .next t => runCmds rest t
    | .fault r => .fault r
    | .refused r => .refused r

/-- `CE.SUM s` (R85). -/
def ceSum (s : List Byte) : List Instr := .ceInit :: s.map .ceUpdate ++ [.ceFinal]

/-- `RF.ENCODE s` (R85). -/
def rfEncode (s : List Byte) : List Instr := .rfStart (countU64 s) :: s.map .rfData

/-- `SP.FEED s` (R85). -/
def spFeed (s : List Byte) : List Instr := s.map .spPush

/-- The commands of one unit among a sequence, in their order (R59). -/
def unitCmds (u : HwUnit) (cs : List Instr) : List Instr := cs.filter fun i => unitOf i = u

/-- The responses to one unit's commands, in their order; `xs` pairs each command with its response (R59). -/
def unitResponses (u : HwUnit) (xs : List (Instr × Response)) : List Response :=
  (xs.filter fun x => unitOf x.1 = u).map Prod.snd

/-- The framer's wire output: the bytes of the accepted RF commands (R64). -/
def wireOutput (xs : List (Instr × Response)) : List Byte :=
  xs.flatMap fun x => if unitOf x.1 = .rf ∧ x.2.status = .ok then x.2.bytes else []

/-- The parser's payload output: the records of its responses (R64). -/
def payloadOutput (xs : List (Instr × Response)) : List (List Byte) :=
  xs.flatMap fun x => if unitOf x.1 = .sp then x.2.records else []

/-- What came after the last `SP.CLEAR`, or everything where there is none (R29, R64). -/
def sinceClear (xs : List (Instr × Response)) : List (Instr × Response) :=
  (xs.reverse.takeWhile fun x => x.1 ≠ .spClear).reverse

/-- The parser's input stream: the bytes of the accepted pushes since the last `SP.CLEAR` (R64). -/
def pushedBytes (xs : List (Instr × Response)) : List Byte :=
  (sinceClear xs).flatMap fun x =>
    match x.1 with
    | .spPush b => if x.2.status = .ok then [b] else []
    | _ => []

/-- The source's `decode_one` (R150): none while bytes are lacking, else the payload and `bytesConsumed`. -/
def decodeOne (buf : List Byte) : Option (List Byte × Nat) :=
  if buf.length < 8 then none
  else
    let consumed := 8 + 4 + fromLe (lengthField buf) + 4
    if buf.length < consumed then none
    else some (payloadField buf (fromLe (lengthField buf)), consumed)

/-- The source's `decode_all` (R172), at most `fuel` records. -/
def decodeManyUpTo : Nat → List Byte → List (List Byte)
  | 0, _ => []
  | fuel + 1, buf =>
    match decodeOne buf with
    | none => []
    | some (payload, consumed) => payload :: decodeManyUpTo fuel (buf.drop consumed)

/-- The source's `decode_all` (R172); every record is longer than one byte, so the fuel does not run out. -/
def decodeMany (buf : List Byte) : List (List Byte) := decodeManyUpTo buf.length buf

/-- `c` is a suffix of `buf` that the source's `decode_all` comes to (R172). -/
inductive Reached (buf : List Byte) : List Byte → Prop
  | start : Reached buf buf
  | next {c payload : List Byte} {consumed : Nat} :
      Reached buf c → decodeOne c = some (payload, consumed) → Reached buf (c.drop consumed)

/-- The host pushes one byte; on FULL it issues `SP.DECODEALL` and pushes the same byte again (R166, R153). -/
def feedByte (b : Byte) (s : State) : Host.Outcome State Fault Refusal :=
  match exec (.spPush b) s with
  | .next t =>
    if (t.outbox.getLast?.map Response.status) = some .full then
      runCmds [.spDecodeall, .spPush b] t
    else .next t
  | .fault r => .fault r
  | .refused r => .refused r

/-- The host's procedure of R166: each byte as `feedByte` says, and one `SP.DECODEALL` after the last. -/
def feedStream : List Byte → State → Host.Outcome State Fault Refusal
  | [], s => exec .spDecodeall s
  | b :: rest, s =>
    match feedByte b s with
    | .next t => feedStream rest t
    | .fault r => .fault r
    | .refused r => .refused r

end Sys2Proof.Machine
end

