-- ==== Sys2Proof/Safety.lean ====
section
/-! DEFINITION. The terms claims use: the invariant of spec/10_state.md R40, what each unit owns (R20), and what it is
for a sequence of commands to have run. -/

namespace Sys2Proof.Machine

/-- The invariants of R40. -/
abbrev State.Inv (s : State) : Prop :=
  (s.rfPhase = .payload ↔ s.rfRem ≠ 0) ∧
  s.rfRem ≤ s.rfLen ∧
  s.spBuf.length ≤ s.bufCap ∧
  (s.spErr = 0 ∨ s.spErr = 0x8 ∨ s.spErr = 0x9 ∨ s.spErr = 0xA ∨ s.spErr = 0xB)

/-- The registers RF owns (R20). -/
structure RfRegs where
  phase : RfPhase
  len : U64
  rem : U64
  crc : U32
deriving DecidableEq, Repr

/-- The registers SP owns, and the capacity it is built with (R20, R7). -/
structure SpRegs where
  buf : List Byte
  offset : U64
  strict : Bool
  eoi : Bool
  err : BitVec 4
  maxLen : MaxLen
deriving DecidableEq, Repr

/-- What RF owns of a state. -/
def State.rfRegs (s : State) : RfRegs := ⟨s.rfPhase, s.rfLen, s.rfRem, s.rfCrc⟩

/-- What SP owns of a state. -/
def State.spRegs (s : State) : SpRegs :=
  ⟨s.spBuf, s.spOffset, s.spStrict, s.spEoi, s.spErr, s.maxLen⟩

/-- The unit whose register has number `n` (R191); the capacity and the unassigned numbers belong to none. -/
def regOwner (n : Byte) : Option HwUnit :=
  if n = 0 then some .ce
  else if n ≤ 4 then some .rf
  else if n ≤ 8 then some .sp
  else none

/-- The registers without the ports: what R20 calls the state, and the capacity. -/
def State.registers (s : State) : State := { s with inbox := [], outbox := [] }

/-- The commands `cs` ran from `s` to `t` and were answered by `rs`, one response each, in order (R58, R78). -/
def Ran (cs : List Instr) (s : State) (rs : List Response) (t : State) : Prop :=
  runCmds cs s = .next t ∧ t.outbox = s.outbox ++ rs ∧ rs.length = cs.length

/-- The host's procedure of R166 ran from `s` to `t` and the block delivered `payloads` during it. -/
def Fed (bytes : List Byte) (s : State) (payloads : List (List Byte)) (t : State) : Prop :=
  feedStream bytes s = .next t ∧
  ∃ rs, t.outbox = s.outbox ++ rs ∧ rs.flatMap Response.records = payloads

end Sys2Proof.Machine
end

