-- ==== Sys2Proof/WellFormed.lean ====
section
/-! DEFINITION. Well-formed commands and command words. Every operand of `Instr` has exactly the bits its format gives
it (spec/30_encoding.md R77), so no term of `Instr` is ill-formed; what can be ill-formed is a WORD: a reserved opcode
(R81), or a bit an assembler leaves zero that is set (R82). -/

namespace Sys2Proof

/-- The check of R81: the word's opcode is one of the thirteen of R76. -/
def CmdWord.assigned (w : CmdWord) : Bool :=
  match decode w with
  | .ok _ => true
  | .error _ => false

/-- The check of R82: the bits the command ignores are zero, as an assembler writes them. A word that fails it is a
legal command all the same. -/
def CmdWord.ignoredZero (w : CmdWord) : Bool :=
  match decode w with
  | .ok i => (argField w &&& ~~~usedArgBits i) == 0
  | .error _ => true

/-- A word as an assembler writes one. -/
def CmdWord.wellFormed (w : CmdWord) : Bool :=
  CmdWord.assigned w && CmdWord.ignoredZero w

/-- A command is well-formed when its word is; every command is (its operands fit by their types). -/
def Instr.wellFormed (i : Instr) : Bool := CmdWord.wellFormed (encode i)

end Sys2Proof
end

