-- ==== Sys2Proof/Certificates/Slice0/Obligations.lean ====
section
/-! DEFINITION. The statements about the block, family by family. Each docstring names the rules it says; "derived" marks
those that rest on an inference of the spec or on a choice of the model (a log entry is notes/assumptions/<n>.md). -/

open Sys2Proof Sys2Proof.Machine

/-! ### Command words -/

/-- R76, R77: the opcode map, where each operand stands in `arg`, and that every other opcode is reserved. -/
def Obligations.OpcodeMapReadsOperands : Prop :=
  ∀ arg : U64,
    decode (0x01#8 ++ arg) = .ok (.sysRdreg (arg.extractLsb' 0 8)) ∧
    decode (0x10#8 ++ arg) = .ok .ceInit ∧
    decode (0x11#8 ++ arg) = .ok (.ceUpdate (arg.extractLsb' 0 8)) ∧
    decode (0x12#8 ++ arg) = .ok .ceFinal ∧
    decode (0x20#8 ++ arg) = .ok (.rfStart arg) ∧
    decode (0x21#8 ++ arg) = .ok (.rfData (arg.extractLsb' 0 8)) ∧
    decode (0x30#8 ++ arg) = .ok (.spPush (arg.extractLsb' 0 8)) ∧
    decode (0x31#8 ++ arg) = .ok .spDecode1 ∧
    decode (0x32#8 ++ arg) = .ok .spDecodeall ∧
    decode (0x33#8 ++ arg) = .ok .spVerify ∧
    decode (0x34#8 ++ arg) = .ok .spEnd ∧
    decode (0x35#8 ++ arg) = .ok .spClear ∧
    decode (0x36#8 ++ arg) = .ok (.spSetmode (arg.getLsbD 0)) ∧
    ∀ op : Byte,
      op ∉ ([0x01, 0x10, 0x11, 0x12, 0x20, 0x21, 0x30, 0x31, 0x32, 0x33, 0x34, 0x35, 0x36] : List Byte) →
      decode (op ++ arg) = .error (.reservedOpcode op)

/-- Words the spec writes out (R110, R111, R131, R133, R152, R162, V16, V47, V51), as 18 hex digits. Derived. -/
def Obligations.WordsOfTheSpecDecode : Prop :=
  decode 0x010000000000000109#72 = .ok (.sysRdreg 9) ∧
  decode 0x11FFFFFFFFFFFFFF61#72 = .ok (.ceUpdate 0x61) ∧
  decode 0x12123456789ABCDEF0#72 = .ok .ceFinal ∧
  decode 0x200000000000000003#72 = .ok (.rfStart 3) ∧
  decode 0x21FFFFFFFFFFFFFF43#72 = .ok (.rfData 0x43) ∧
  decode 0x300000000000000003#72 = .ok (.spPush 3) ∧
  decode 0x360000000000000001#72 = .ok (.spSetmode true) ∧
  decode 0x36FFFFFFFFFFFFFFFE#72 = .ok (.spSetmode false) ∧
  decode 0x130000000000000000#72 = .error (.reservedOpcode 0x13)

/-- Every command's word is well-formed and decodes to that command, every operand at every value (R75 to R77).
Derived: the encoder is the model's. -/
def Obligations.EncodeDecodeRoundTrip : Prop :=
  ∀ i : Instr, i.wellFormed = true ∧ decode (encode i) = .ok i

/-- R82: a step on a word is the step on the same word with the ignored argument bits zero, which is the word an
assembler writes. -/
def Obligations.IgnoredBitsHaveNoEffect : Prop :=
  ∀ (w : CmdWord) (i : Instr), decode w = .ok i →
    encode i = opcodeField w ++ (argField w &&& usedArgBits i) ∧
    ∀ (s : State) (rest : List PortEvent),
      step { s with inbox := .command w :: rest } =
      step { s with inbox := .command (opcodeField w ++ (argField w &&& usedArgBits i)) :: rest }

/-- R81, R193: a word whose opcode lies in a reserved range is refused with BADCMD, whatever its argument, in every
state, and changes nothing but that it has been taken and answered. -/
def Obligations.ReservedOpcodesRefused : Prop :=
  ∀ (op : Byte) (arg : U64) (s : State) (rest : List PortEvent),
    (op.toNat = 0x00 ∨ (0x02 ≤ op.toNat ∧ op.toNat ≤ 0x0F) ∨ (0x13 ≤ op.toNat ∧ op.toNat ≤ 0x1F) ∨
      (0x22 ≤ op.toNat ∧ op.toNat ≤ 0x2F) ∨ (0x37 ≤ op.toNat ∧ op.toNat ≤ 0x3F) ∨ 0x40 ≤ op.toNat) →
    step { s with inbox := .command (op ++ arg) :: rest } =
      .next { s with inbox := rest, outbox := s.outbox ++ [⟨.badcmd, 0, [], []⟩] }

/-! ### Steps and reset -/

/-- A step whose first request is a word that decodes is `exec` of that command on the state with the word taken
(R22, R58). Derived: the inbox is the model's (log entry 2). -/
def Obligations.StepRunsDecodedCommand : Prop :=
  ∀ (s : State) (w : CmdWord) (rest : List PortEvent) (i : Instr),
    s.inbox = .command w :: rest → decode w = .ok i →
    step s = exec i { s with inbox := rest }

/-- Nothing asked, nothing changes (R243). Derived: the inbox is the model's (log entries 2 and 12). -/
def Obligations.QuiescentWithoutCommand : Prop :=
  ∀ s : State, s.inbox = [] → step s = .next s

/-- The reset input gives every register its reset value (R230, R231). Derived: that the capacity, what was answered and
what is still asked stay is the model's (log entry 7). -/
def Obligations.ResetInputRestoresRegisters : Prop :=
  ∀ (s : State) (rest : List PortEvent), s.inbox = .rst :: rest →
    step s = .next
      { ceCrc := 0xFFFFFFFF, rfPhase := .idle, rfLen := 0, rfRem := 0, rfCrc := 0xFFFFFFFF,
        spBuf := [], spOffset := 0, spStrict := false, spEoi := false, spErr := 0,
        maxLen := s.maxLen, inbox := rest, outbox := s.outbox }

/-- R39, R231: every register after reset, and the table, whose constants no state can change; the table is said by its
construction (R106). -/
def Obligations.RegistersAfterReset : Prop :=
  State.reset.ceCrc = 0xFFFFFFFF ∧ State.reset.rfPhase = .idle ∧ State.reset.rfLen = 0 ∧
  State.reset.rfRem = 0 ∧ State.reset.rfCrc = 0xFFFFFFFF ∧ State.reset.spBuf = [] ∧
  State.reset.spOffset = 0 ∧ State.reset.spStrict = false ∧ State.reset.spEoi = false ∧
  State.reset.spErr = 0 ∧ ∀ i : Byte, tableEntry i = tableBuilt i

/-- The invariant of R40 holds after reset, for every capacity. Derived (R40 is marked derived). -/
def Obligations.InvariantAfterReset : Prop :=
  State.reset.Inv ∧ ∀ m : MaxLen, (State.resetWith m).Inv

/-- The invariant of R40 is kept by every step, from every state that has it, and the capacity never changes.
Derived (R40 is marked derived). -/
def Obligations.StepKeepsInvariant : Prop :=
  ∀ s t : State, s.Inv → step s = .next t → t.Inv ∧ t.maxLen = s.maxLen

/-- Any sequence of commands runs, from any state; each command gives exactly one response, in order (R58, R78, R243);
what the host has still to ask and the capacity are untouched. Derived: the ports are the model's. -/
def Obligations.EveryCommandIsAnsweredOnce : Prop :=
  ∀ (cs : List Instr) (s : State), ∃ rs t,
    Ran cs s rs t ∧ t.inbox = s.inbox ∧ t.maxLen = s.maxLen

/-- The words of a command sequence, offered in order, run as that sequence, one step each (R58). Derived: the inbox is
the model's. -/
def Obligations.OfferedWordsRunInOrder : Prop :=
  ∀ (cs : List Instr) (s : State) (rest : List PortEvent),
    Host.Core.run core cs.length
      { s with inbox := (cs.map fun i => PortEvent.command (encode i)) ++ rest } =
    runCmds cs { s with inbox := rest }

/-! ### Checksum Engine -/

/-- R110, with its encoding. -/
def Obligations.CeInitLoadsInitialValue : Prop :=
  (∀ arg : U64, decode (0x10#8 ++ arg) = .ok .ceInit) ∧
  ∀ s : State, exec .ceInit s =
    .next { s with ceCrc := 0xFFFFFFFF, outbox := s.outbox ++ [⟨.ok, 0, [], []⟩] }

/-- R111 and R101, with the encoding. -/
def Obligations.CeUpdateStepsRunningValue : Prop :=
  (∀ arg : U64, decode (0x11#8 ++ arg) = .ok (.ceUpdate (arg.extractLsb' 0 8))) ∧
  ∀ (b : Byte) (s : State), exec (.ceUpdate b) s =
    .next { s with
      ceCrc := (s.ceCrc >>> 8) ^^^ tableEntry ((s.ceCrc ^^^ b.setWidth 32).extractLsb' 0 8)
      outbox := s.outbox ++ [⟨.ok, 0, [], []⟩] }

/-- R112 and R104, with the encoding: the mask is said with Lean's own rotation. -/
def Obligations.CeFinalGivesMaskedChecksum : Prop :=
  (∀ arg : U64, decode (0x12#8 ++ arg) = .ok .ceFinal) ∧
  ∀ s : State, exec .ceFinal s =
    .next { s with outbox := s.outbox ++
      [⟨.ok, ((~~~s.ceCrc).rotateRight 15 + 0xA282EAD8#32).setWidth 64,
        [((~~~s.ceCrc).rotateRight 15 + 0xA282EAD8#32).extractLsb' 0 8,
         ((~~~s.ceCrc).rotateRight 15 + 0xA282EAD8#32).extractLsb' 8 8,
         ((~~~s.ceCrc).rotateRight 15 + 0xA282EAD8#32).extractLsb' 16 8,
         ((~~~s.ceCrc).rotateRight 15 + 0xA282EAD8#32).extractLsb' 24 8], []⟩] }

/-- The listing of the table agrees with its construction (R105, R106). Derived: the spec takes both from general
knowledge. -/
def Obligations.TableListingIsConstruction : Prop :=
  ∀ i : Byte, tableEntry i = tableBuilt i

/-- The table is linear over XOR (R105, its checks for a transcriber). Derived (marked so in R105). -/
def Obligations.TableIsLinear : Prop :=
  ∀ i j : Byte, tableEntry (i ^^^ j) = tableEntry i ^^^ tableEntry j

/-- R102: the running value over a sequence, and its consequence for any split. -/
def Obligations.ChunkingKeepsRunningValue : Prop :=
  (∀ c : U32, crcRun c [] = c) ∧
  (∀ (c : U32) (b : Byte) (s : List Byte), crcRun c ([b] ++ s) = crcRun (crcStep c b) s) ∧
  ∀ (c : U32) (s u : List Byte), crcRun c (s ++ u) = crcRun (crcRun c s) u

/-- The mask is the rotation of R104 plus the constant, and it is a bijection. Derived (the bijection is marked so in
R104). -/
def Obligations.MaskIsBijective : Prop :=
  (∀ c : U32, mask32 c = c.rotateRight 15 + 0xA282EAD8#32) ∧
  (∀ c c' : U32, mask32 c = mask32 c' → c = c') ∧ ∀ m : U32, ∃ c, mask32 c = m

/-- The masked checksums of R109. Derived (marked so in R109). -/
def Obligations.ReferenceChecksums : Prop :=
  maskedChecksum [] = [0xD8, 0xEA, 0x82, 0xA2] ∧
  maskedChecksum [0x61, 0x62, 0x63, 0x64, 0x65, 0x66, 0x67, 0x68, 0x69, 0x6A] = [0x8B, 0xB7, 0xF2, 0xCA] ∧
  crc32c [0x31, 0x32, 0x33, 0x34, 0x35, 0x36, 0x37, 0x38, 0x39] = 0xE3069283 ∧
  maskedChecksum [0x41, 0x42, 0x43] = [0x4B, 0xFB, 0x81, 0xF5] ∧
  maskedChecksum [0x61] = [0x78, 0x6E, 0xE4, 0x28] ∧
  maskedChecksum [0x00] = [0xD2, 0x8F, 0x25, 0x49] ∧
  maskedChecksum [0xFF] = [0xD8, 0xE8, 0x84, 0xA2]

/-- R114: no CE command answers anything but OK, changes RF or SP, or depends on them. -/
def Obligations.ChecksumEngineNeverFails : Prop :=
  ∀ (i : Instr) (s s' : State), unitOf i = .ce → s.ceCrc = s'.ceCrc →
    ∃ r t t', exec i s = .next t ∧ exec i s' = .next t' ∧
      t.outbox = s.outbox ++ [r] ∧ t'.outbox = s'.outbox ++ [r] ∧ r.status = .ok ∧
      t.ceCrc = t'.ceCrc ∧ t.rfRegs = s.rfRegs ∧ t.spRegs = s.spRegs

/-- The CE commands of a sequence being `CE.SUM s`, the last CE response is the masked checksum of `s`, whatever
commands of other units stand between (R113). Derived (marked so in R113). -/
def Obligations.CeSumIsMaskedChecksum : Prop :=
  ∀ (str : List Byte) (cs : List Instr) (s : State), unitCmds .ce cs = ceSum str →
    ∃ rs t, Ran cs s rs t ∧
      t.ceCrc = crcRun 0xFFFFFFFF str ∧
      (unitResponses .ce (cs.zip rs)).getLast? =
        some ⟨.ok, (mask32 (crc32c str)).setWidth 64, maskedChecksum str, []⟩

/-- Changing any one byte of a sequence, so any one bit, changes its masked checksum (R115, from the byte step of
R101, the mask of R104 and the table of R105). Derived: R115 rests on general knowledge and speaks of one bit. -/
def Obligations.MaskedChecksumSeesOneByte : Prop :=
  ∀ (p q : List Byte) (b b' : Byte), b ≠ b' →
    maskedChecksum (p ++ [b] ++ q) ≠ maskedChecksum (p ++ [b'] ++ q)

/-! ### Record Framer -/

/-- R131, with its encoding: the header, the opened record, and the empty record in one command. -/
def Obligations.RfStartOpensRecord : Prop :=
  (∀ arg : U64, decode (0x20#8 ++ arg) = .ok (.rfStart arg)) ∧
  ∀ (len : U64) (s : State), s.rfPhase = .idle →
    exec (.rfStart len) s =
      if len = 0 then
        .next { s with
          rfPhase := .idle, rfLen := 0, rfRem := 0, rfCrc := 0xFFFFFFFF
          outbox := s.outbox ++ [⟨.ok, 0, le64 0 ++ maskedChecksum (le64 0) ++ [0xD8, 0xEA, 0x82, 0xA2], []⟩] }
      else
        .next { s with
          rfPhase := .payload, rfLen := len, rfRem := len, rfCrc := 0xFFFFFFFF
          outbox := s.outbox ++ [⟨.ok, len, le64 len ++ maskedChecksum (le64 len), []⟩] }

/-- R132: refused while a record is open; no command abandons the record (those of other units do not touch it, and
RF.DATA closes it with its last byte only), and reset does. -/
def Obligations.RfStartRefusedWhileOpen : Prop :=
  (∀ (len : U64) (s : State), s.rfPhase = .payload →
    exec (.rfStart len) s = .next { s with outbox := s.outbox ++ [⟨.proto, 0, [], []⟩] }) ∧
  (∀ (i : Instr) (s t : State), unitOf i ≠ .rf → exec i s = .next t → t.rfRegs = s.rfRegs) ∧
  (∀ (b : Byte) (s t : State), s.rfPhase = .payload → exec (.rfData b) s = .next t → t.rfPhase = .idle →
    s.rfRem = 1) ∧
  ∀ (s : State) (rest : List PortEvent), s.rfPhase = .payload → s.inbox = .rst :: rest →
    ∃ t, step s = .next t ∧ t.rfPhase = .idle

/-- R133, with its encoding: the byte, and the trailer after the last one, in PAYLOAD with a byte owed ("then
`RF_REM >= 1`", which the invariant gives). -/
def Obligations.RfDataEmitsByte : Prop :=
  (∀ arg : U64, decode (0x21#8 ++ arg) = .ok (.rfData (arg.extractLsb' 0 8))) ∧
  ∀ (b : Byte) (s : State), s.rfPhase = .payload → s.rfRem ≠ 0 →
    exec (.rfData b) s =
      if s.rfRem - 1 = 0 then
        .next { s with
          rfPhase := .idle, rfRem := 0, rfCrc := crcStep s.rfCrc b
          outbox := s.outbox ++ [⟨.ok, 0, [b] ++ le32 (mask32 (~~~crcStep s.rfCrc b)), []⟩] }
      else
        .next { s with
          rfRem := s.rfRem - 1, rfCrc := crcStep s.rfCrc b
          outbox := s.outbox ++ [⟨.ok, s.rfRem - 1, [b], []⟩] }

/-- R134. -/
def Obligations.RfDataRefusedWhileIdle : Prop :=
  ∀ (b : Byte) (s : State), s.rfPhase = .idle →
    exec (.rfData b) s = .next { s with outbox := s.outbox ++ [⟨.proto, 0, [], []⟩] }

/-- R137: no RF command ever answers a failure status; its only status but OK is PROTO, with nothing changed, and under
the invariant that answers only a command issued in the wrong phase. -/
def Obligations.FramerNeverFailsOnData : Prop :=
  ∀ (i : Instr) (s : State), unitOf i = .rf →
    ∃ r t, exec i s = .next t ∧ t.outbox = s.outbox ++ [r] ∧ r.status.kind ≠ .failure ∧
      (r.status = .ok ∨
        (t = { s with outbox := s.outbox ++ [⟨.proto, 0, [], []⟩] } ∧
          (s.Inv → ((∃ len, i = .rfStart len) ∧ s.rfPhase = .payload) ∨
            ((∃ b, i = .rfData b) ∧ s.rfPhase = .idle))))

/-- The RF commands of a sequence being `RF.ENCODE p`, from IDLE, all are accepted, the wire carries
`encode_record(p)`, and the framer ends IDLE, whatever commands of other units stand between (R135). Derived (marked so
in R135). -/
def Obligations.RfEncodeIsEncodeRecord : Prop :=
  ∀ (p : List Byte) (cs : List Instr) (s : State), p.length < 2 ^ 64 → s.rfPhase = .idle →
    unitCmds .rf cs = rfEncode p →
    ∃ rs t, Ran cs s rs t ∧ t.rfPhase = .idle ∧
      (∀ r ∈ unitResponses .rf (cs.zip rs), r.status = .ok) ∧
      wireOutput (cs.zip rs) = le64 (BitVec.ofNat 64 p.length) ++
        maskedChecksum (le64 (BitVec.ofNat 64 p.length)) ++ p ++ maskedChecksum p

/-- Whatever commands run from a state with no record open, the wire carries whole records with nothing between, and
then, while a record is open, its header and the payload bytes given so far (R64, R71, R138). Derived. -/
def Obligations.WireIsRecordsAndOpenRecord : Prop :=
  ∀ (cs : List Instr) (s : State) (rs : List Response) (t : State), s.rfPhase = .idle → Ran cs s rs t →
    ∃ ps : List (List Byte), (∀ p ∈ ps, p.length < 2 ^ 64) ∧
      match t.rfPhase with
      | .idle => wireOutput (cs.zip rs) = ps.flatMap encodeRecord
      | .payload => ∃ q : List Byte,
          wireOutput (cs.zip rs) = ps.flatMap encodeRecord ++ recordHeader t.rfLen ++ q ∧
          q.length + t.rfRem.toNat = t.rfLen.toNat ∧ t.rfCrc = crcRun 0xFFFFFFFF q

/-! ### Stream Parser: bytes in -/

/-- R152, with its encoding. -/
def Obligations.SpPushAppendsByte : Prop :=
  (∀ arg : U64, decode (0x30#8 ++ arg) = .ok (.spPush (arg.extractLsb' 0 8))) ∧
  ∀ (b : Byte) (s : State), s.spErr = 0 → s.spEoi = false → s.spBuf.length < s.bufCap →
    exec (.spPush b) s = .next { s with
      spBuf := s.spBuf ++ [b]
      outbox := s.outbox ++ [⟨.ok, BitVec.ofNat 64 (s.spBuf.length + 1), [], []⟩] }

/-- R153, its three refusals in their order. -/
def Obligations.SpPushRefusals : Prop :=
  ∀ (b : Byte) (s : State),
    (s.spErr ≠ 0 →
      exec (.spPush b) s = .next { s with outbox := s.outbox ++ [⟨.faulted, 0, [], []⟩] }) ∧
    (s.spErr = 0 → s.spEoi = true →
      exec (.spPush b) s = .next { s with outbox := s.outbox ++ [⟨.proto, 0, [], []⟩] }) ∧
    (s.spErr = 0 → s.spEoi = false → s.spBuf.length = s.bufCap →
      exec (.spPush b) s = .next { s with outbox := s.outbox ++ [⟨.full, 0, [], []⟩] })

/-! ### Stream Parser: the frame-boundary detector -/

/-- `frame` gives each case of R151 exactly under its condition, and where it is not `tooLong` it agrees with the source's
`decode_one` (R150). Derived: the agreement is a consequence the spec draws. -/
def Obligations.FrameFindsBoundary : Prop :=
  ∀ (m : Nat) (buf : List Byte),
    (frame m buf = .short ↔ buf.length < 8) ∧
    (∀ l, frame m buf = .tooLong l ↔ 8 ≤ buf.length ∧ l = fromLe (buf.take 8) ∧ m < l) ∧
    (∀ l, frame m buf = .incomplete l ↔
      8 ≤ buf.length ∧ l = fromLe (buf.take 8) ∧ l ≤ m ∧ buf.length < 16 + l) ∧
    (∀ l, frame m buf = .whole l ↔
      8 ≤ buf.length ∧ l = fromLe (buf.take 8) ∧ l ≤ m ∧ 16 + l ≤ buf.length) ∧
    ((∀ l, frame m buf ≠ .tooLong l) →
      decodeOne buf = match frame m buf with
        | .whole l => some ((buf.drop 12).take l, 16 + l)
        | _ => none)

/-- Every slice the parser takes lies inside the buffer: it has its full width (R167). Derived (marked so in R167). -/
def Obligations.BufferReadsStayInside : Prop :=
  ∀ (m : Nat) (buf : List Byte),
    (frame m buf ≠ .short → (lengthField buf).length = 8) ∧
    ∀ l, frame m buf = .whole l →
      (lengthChecksumField buf).length = 4 ∧ (payloadField buf l).length = l ∧
      (payloadChecksumField buf l).length = 4 ∧
      buf = lengthField buf ++ lengthChecksumField buf ++ payloadField buf l ++
        payloadChecksumField buf l ++ buf.drop (16 + l)

/-! ### Stream Parser: decoding -/

/-- R156: a whole record, in permissive mode or with both checksums right, is delivered and consumed. -/
def Obligations.SpDecode1Delivers : Prop :=
  ∀ (s : State) (l : Nat), s.spErr = 0 → frame s.maxLen.val s.spBuf = .whole l →
    (s.spStrict = true →
      slice s.spBuf 8 12 = maskedChecksum (slice s.spBuf 0 8) ∧
      slice s.spBuf (12 + l) (16 + l) = maskedChecksum (slice s.spBuf 12 (12 + l))) →
    exec .spDecode1 s = .next { s with
      spBuf := s.spBuf.drop (16 + l)
      spOffset := s.spOffset + BitVec.ofNat 64 (16 + l)
      outbox := s.outbox ++
        [⟨.ok, BitVec.ofNat 64 (16 + l), [], [slice s.spBuf 12 (12 + l)]⟩] }

/-- R157: a decode that lacks bytes answers NONE, EOF or faults TRUNC, by the end-of-input assertion. -/
def Obligations.SpDecode1LackingBytes : Prop :=
  ∀ s : State, s.spErr = 0 →
    (frame s.maxLen.val s.spBuf = .short ∨ ∃ l, frame s.maxLen.val s.spBuf = .incomplete l) →
    (s.spEoi = false →
      exec .spDecode1 s = .next { s with outbox := s.outbox ++ [⟨.noRecord, 0, [], []⟩] }) ∧
    (s.spEoi = true → s.spBuf = [] →
      exec .spDecode1 s = .next { s with outbox := s.outbox ++ [⟨.eof, 0, [], []⟩] }) ∧
    (s.spEoi = true → s.spBuf ≠ [] →
      exec .spDecode1 s = .next { s with
        spErr := 0x8, outbox := s.outbox ++ [⟨.trunc, 0, [], []⟩] })

/-- R155: an oversized length faults SIZEOVF in both modes, whatever `SP_EOI` is and however many bytes are buffered;
the length of all ones always does. -/
def Obligations.SpDecode1RejectsOversized : Prop :=
  (∀ s : State, s.spErr = 0 → 8 ≤ s.spBuf.length →
    s.bufCap - 16 < fromLe (slice s.spBuf 0 8) →
    exec .spDecode1 s = .next { s with
      spErr := 0xB, outbox := s.outbox ++ [⟨.sizeovf, 0, [], []⟩] }) ∧
  ∀ (s : State) (more : List Byte), s.spErr = 0 → s.spBuf = List.replicate 8 0xFF ++ more →
    exec .spDecode1 s = .next { s with
      spErr := 0xB, outbox := s.outbox ++ [⟨.sizeovf, 0, [], []⟩] }

/-- R158: what `verify` tests, and in which order; in strict mode a wrong length checksum faults CKLEN, a wrong payload checksum alone CKPAY; the record is
neither delivered nor consumed. -/
def Obligations.SpDecode1StrictMismatch : Prop :=
  (∀ (buf : List Byte) (l : Nat), verify buf l =
    if slice buf 8 12 ≠ maskedChecksum (slice buf 0 8) then .badLen
    else if slice buf (12 + l) (16 + l) ≠ maskedChecksum (slice buf 12 (12 + l)) then .badPay
    else .good) ∧
  ∀ (s : State) (l : Nat), s.spErr = 0 → s.spStrict = true → frame s.maxLen.val s.spBuf = .whole l →
    (slice s.spBuf 8 12 ≠ maskedChecksum (slice s.spBuf 0 8) →
      exec .spDecode1 s = .next { s with
        spErr := 0x9, outbox := s.outbox ++ [⟨.cklen, 0, [], []⟩] }) ∧
    (slice s.spBuf 8 12 = maskedChecksum (slice s.spBuf 0 8) →
      slice s.spBuf (12 + l) (16 + l) ≠ maskedChecksum (slice s.spBuf 12 (12 + l)) →
      exec .spDecode1 s = .next { s with
        spErr := 0xA, outbox := s.outbox ++ [⟨.ckpay, 0, [], []⟩] })

/-- R159, with its encoding: `SP.DECODEALL` is one `SP.DECODE1` and, while that answers OK, the rest of the loop; its
response has the records and the sum of both, and the status of the last decode, which is never OK and is latched when
it is a failure. The sum cannot wrap. -/
def Obligations.SpDecodeallLoopsDecode1 : Prop :=
  (∀ arg : U64, decode (0x32#8 ++ arg) = .ok .spDecodeall) ∧
  (∀ s : State, s.spErr ≠ 0 →
    exec .spDecodeall s = .next { s with outbox := s.outbox ++ [⟨.faulted, 0, [], []⟩] }) ∧
  (∀ s : State, ∃ (r : Response) (t : State), exec .spDecodeall s = .next { t with outbox := s.outbox ++ [r] } ∧
    r.status ≠ .ok ∧ (r.status.kind = .failure → t.spErr = r.status.code) ∧
    (s.spBuf.length ≤ s.bufCap → r.value.toNat ≤ s.bufCap)) ∧
  ∀ s : State, s.spErr = 0 →
    ∃ (r : Response) (t : State), exec .spDecode1 s = .next { t with outbox := s.outbox ++ [r] } ∧
      if r.status = .ok then
        ∃ (r' : Response) (t' : State), exec .spDecodeall t = .next { t' with outbox := t.outbox ++ [r'] } ∧
          exec .spDecodeall s = .next { t' with
            outbox := s.outbox ++ [⟨r'.status, r.value + r'.value, [], r.records ++ r'.records⟩] }
      else
        exec .spDecodeall s = .next { t with outbox := s.outbox ++ [⟨r.status, 0, [], []⟩] }

/-- One `SP.DECODEALL` on an unfaulted parser splits the buffer into whole records (verified in strict mode), delivered
in order, and what is left; the cursor moves by what was consumed, the status is the one R209 gives for what is left,
so never OK, it is latched exactly when it is a failure, and the modes are kept (R159, R206). Derived: it puts the
loop's turns together. -/
def Obligations.SpDecodeallDrainsBuffer : Prop :=
  ∀ s : State, s.spErr = 0 →
    ∃ (left : List Byte) (st : Status) (frames : List (List Byte)),
      s.spBuf = frames.flatten ++ left ∧
      (∀ f ∈ frames, frame s.maxLen.val f = .whole (f.length - 16) ∧
        (s.spStrict = true → verify f (f.length - 16) = .good)) ∧
      exec .spDecodeall s = .next { s with
        spBuf := left
        spOffset := s.spOffset + BitVec.ofNat 64 frames.flatten.length
        spErr := if st.kind = .failure then st.code else 0
        outbox := s.outbox ++ [⟨st, BitVec.ofNat 64 frames.flatten.length, [],
          frames.map fun f => slice f 12 (f.length - 4)⟩] } ∧
      match frame s.maxLen.val left with
      | .tooLong _ => st = .sizeovf
      | .whole l => s.spStrict = true ∧
          ((verify left l = .badLen ∧ st = .cklen) ∨ (verify left l = .badPay ∧ st = .ckpay))
      | .short => st = if s.spEoi then if left = [] then .eof else .trunc else .noRecord
      | .incomplete _ => st = if s.spEoi then if left = [] then .eof else .trunc else .noRecord

/-- In strict mode, what `SP.DECODEALL` delivers and consumes is exactly a run of well-formed records (R70, R74, R204).
Derived. -/
def Obligations.StrictDecodeIsSound : Prop :=
  ∀ s : State, s.spErr = 0 → s.spStrict = true →
    ∃ (r : Response) (t : State), exec .spDecodeall s = .next { t with outbox := s.outbox ++ [r] } ∧
      s.spBuf = r.records.flatMap encodeRecord ++ t.spBuf

/-- With no end of input, permissive, and no oversized length met, the records of `SP.DECODEALL` are the source's
`decode_all` of the buffer (R172). Derived (marked so in R172). -/
def Obligations.SpDecodeallIsDecodeAll : Prop :=
  (∀ buf : List Byte, decodeMany buf =
    match decodeOne buf with
    | none => []
    | some (payload, consumed) => payload :: decodeMany (buf.drop consumed)) ∧
  ∀ s : State, s.spErr = 0 → s.spEoi = false → s.spStrict = false →
    (∀ c, Reached s.spBuf c → ∀ l, frame s.maxLen.val c ≠ .tooLong l) →
    ∃ (r : Response) (t : State), exec .spDecodeall s = .next { t with outbox := s.outbox ++ [r] } ∧
      r.status = .noRecord ∧ r.records = decodeMany s.spBuf

/-- R160, with its encoding: what `SP.VERIFY` reports, changing nothing. -/
def Obligations.SpVerifyReports : Prop :=
  (∀ arg : U64, decode (0x33#8 ++ arg) = .ok .spVerify) ∧
  ∀ s : State,
    exec .spVerify s = .next { s with outbox := s.outbox ++ [
      if s.spErr ≠ 0 then ⟨.faulted, 0, [], []⟩
      else if s.spBuf.length < 8 then ⟨.noRecord, 0, [], []⟩
      else if s.bufCap - 16 < fromLe (slice s.spBuf 0 8) then ⟨.sizeovf, 0, [], []⟩
      else if s.spBuf.length < 16 + fromLe (slice s.spBuf 0 8) then ⟨.noRecord, 0, [], []⟩
      else if slice s.spBuf 8 12 ≠ maskedChecksum (slice s.spBuf 0 8) then ⟨.cklen, 0, [], []⟩
      else if slice s.spBuf (12 + fromLe (slice s.spBuf 0 8)) (16 + fromLe (slice s.spBuf 0 8)) ≠
          maskedChecksum (slice s.spBuf 12 (12 + fromLe (slice s.spBuf 0 8))) then ⟨.ckpay, 0, [], []⟩
      else ⟨.ok, BitVec.ofNat 64 (16 + fromLe (slice s.spBuf 0 8)), [], []⟩] }

/-- A full buffer never waits: a decode on it delivers or faults (R168). Derived (marked so in R168). -/
def Obligations.FullBufferNeverWaits : Prop :=
  ∀ s : State, s.spErr = 0 → s.spBuf.length = s.bufCap →
    ∃ (r : Response) (t : State), exec .spDecode1 s = .next { t with outbox := s.outbox ++ [r] } ∧
      ((r.status = .ok ∧ t.spBuf.length < s.bufCap) ∨ t.spErr ≠ 0)

/-! ### Stream Parser: control -/

/-- R161, with its encoding; of the commands only `SP.CLEAR` undoes it, and reset does. -/
def Obligations.SpEndAssertsEndOfInput : Prop :=
  (∀ arg : U64, decode (0x34#8 ++ arg) = .ok .spEnd) ∧
  (∀ (i : Instr) (s t : State), i ≠ .spClear → s.spEoi = true → exec i s = .next t → t.spEoi = true) ∧
  (∀ (s : State) (rest : List PortEvent), s.inbox = .rst :: rest → ∃ t, step s = .next t ∧ t.spEoi = false) ∧
  ∀ s : State,
    (s.spErr ≠ 0 → exec .spEnd s = .next { s with outbox := s.outbox ++ [⟨.faulted, 0, [], []⟩] }) ∧
    (s.spErr = 0 → exec .spEnd s = .next { s with
      spEoi := true, outbox := s.outbox ++ [⟨.ok, 0, [], []⟩] })

/-- R162, with its encoding. -/
def Obligations.SpSetmodeSelectsMode : Prop :=
  (∀ arg : U64, decode (0x36#8 ++ arg) = .ok (.spSetmode (arg.getLsbD 0))) ∧
  ∀ (b : Bool) (s : State),
    (s.spErr ≠ 0 → exec (.spSetmode b) s = .next { s with outbox := s.outbox ++ [⟨.faulted, 0, [], []⟩] }) ∧
    (s.spErr = 0 → exec (.spSetmode b) s = .next { s with
      spStrict := b, outbox := s.outbox ++ [⟨.ok, 0, [], []⟩] })

/-- R163, with its encoding: it is the one SP command a faulted parser accepts. -/
def Obligations.SpClearEmptiesParser : Prop :=
  (∀ arg : U64, decode (0x35#8 ++ arg) = .ok .spClear) ∧
  (∀ (i : Instr) (s t : State), unitOf i = .sp → i ≠ .spClear → s.spErr ≠ 0 → exec i s = .next t →
    t.outbox = s.outbox ++ [⟨.faulted, 0, [], []⟩]) ∧
  ∀ s : State, exec .spClear s = .next { s with
    spBuf := [], spOffset := 0, spEoi := false, spErr := 0
    outbox := s.outbox ++ [⟨.ok, 0, [], []⟩] }

/-- R164: while the parser is faulted every SP command but `SP.CLEAR` is refused and changes nothing; the others do as
they do on the same state unfaulted, but for `SYS.RDREG 8`, which reads the fault. -/
def Obligations.FaultedParserRefuses : Prop :=
  ∀ (i : Instr) (s : State), s.spErr ≠ 0 →
    (unitOf i = .sp → i ≠ .spClear →
      exec i s = .next { s with outbox := s.outbox ++ [⟨.faulted, 0, [], []⟩] }) ∧
    (unitOf i ≠ .sp → i ≠ .sysRdreg 8 → ∃ t,
      exec i { s with spErr := 0 } = .next t ∧ exec i s = .next { t with spErr := s.spErr })

/-- A latched fault is left only by `SP.CLEAR` and reset: any other step keeps all the parser's registers
(R207, R208). Derived (R208 is marked derived). -/
def Obligations.FaultStaysUntilClear : Prop :=
  ∀ s t : State, s.spErr ≠ 0 → step s = .next t →
    t.spRegs = s.spRegs ∨
    (∃ rest, s.inbox = .rst :: rest) ∨
    ∃ w rest, s.inbox = .command w :: rest ∧ decode w = .ok .spClear

/-! ### Stream Parser: round trips and streams -/

/-- A record fed into an empty parser is verified and decoded to its payload, in both modes (R165). Derived (marked so
in R165). -/
def Obligations.RecordRoundTrip : Prop :=
  ∀ (p : List Byte) (s : State), p.length ≤ s.bufCap - 16 →
    s.spErr = 0 → s.spEoi = false → s.spBuf = [] →
    ∃ rs t, Ran (spFeed (encodeRecord p) ++ [.spVerify, .spDecode1]) s
        (rs ++ [⟨.ok, BitVec.ofNat 64 (16 + p.length), [], []⟩,
          ⟨.ok, BitVec.ofNat 64 (16 + p.length), [], [p]⟩]) t ∧
      (∀ r ∈ rs, r.status = .ok) ∧ t.spBuf = [] ∧ t.spErr = 0

/-- A stream of records, of any length, fed by the host's procedure of R166 through the buffer, is delivered as its
payloads in order, and the buffer ends empty, in both modes. Derived (marked so in R166). -/
def Obligations.StreamRoundTrip : Prop :=
  ∀ (ps : List (List Byte)) (s : State), (∀ p ∈ ps, p.length ≤ s.bufCap - 16) →
    s.spErr = 0 → s.spEoi = false → s.spBuf = [] →
    ∃ t, Fed (ps.flatMap encodeRecord) s ps t ∧ t.spBuf = [] ∧ t.spErr = 0

/-- Over any command sequence, the input stream since the last `SP.CLEAR` (with what was buffered at the start, where
there was none) is the whole records delivered since, in order, followed by what is buffered at the end; `SP_OFFSET` is
the length of those records, counted from 0 or from its start (R29, R64, R169). Derived. -/
def Obligations.ParserConservesStream : Prop :=
  ∀ (cs : List Instr) (s : State) (rs : List Response) (t : State), Ran cs s rs t →
    ∃ frames : List (List Byte),
      (if .spClear ∈ cs then [] else s.spBuf) ++ pushedBytes (cs.zip rs) = frames.flatten ++ t.spBuf ∧
      (∀ f ∈ frames, frame s.maxLen.val f = .whole (f.length - 16)) ∧
      payloadOutput (sinceClear (cs.zip rs)) = frames.map (fun f => slice f 12 (f.length - 4)) ∧
      t.spOffset = (if .spClear ∈ cs then 0 else s.spOffset) + BitVec.ofNat 64 frames.flatten.length

/-! ### System -/

/-- R190, R191, R192, with the encoding: what each register number reads. -/
def Obligations.RdregReadsRegisters : Prop :=
  (∀ arg : U64, decode (0x01#8 ++ arg) = .ok (.sysRdreg (arg.extractLsb' 0 8))) ∧
  ∀ (n : Byte) (s : State),
    exec (.sysRdreg n) s = .next { s with outbox := s.outbox ++ [
      if n = 0 then ⟨.ok, s.ceCrc.setWidth 64, [], []⟩
      else if n = 1 then ⟨.ok, if s.rfPhase = .payload then 1 else 0, [], []⟩
      else if n = 2 then ⟨.ok, s.rfLen, [], []⟩
      else if n = 3 then ⟨.ok, s.rfRem, [], []⟩
      else if n = 4 then ⟨.ok, s.rfCrc.setWidth 64, [], []⟩
      else if n = 5 then ⟨.ok, BitVec.ofNat 64 s.spBuf.length, [], []⟩
      else if n = 6 then ⟨.ok, s.spOffset, [], []⟩
      else if n = 7 then
        ⟨.ok, (if s.spStrict then 1 else 0) + (if s.spEoi then 2 else 0), [], []⟩
      else if n = 8 then ⟨.ok, s.spErr.setWidth 64, [], []⟩
      else if n = 9 then ⟨.ok, BitVec.ofNat 64 s.bufCap, [], []⟩
      else ⟨.badcmd, 0, [], []⟩] }

/-! ### The whole block -/

/-- The status codes of R80, their classes, and bit 3 set exactly on the failures. Derived: R80 also says where a code is
latched, which the statements about the parser say. -/
def Obligations.StatusCodesOfTheBlock : Prop :=
  ([.ok, .noRecord, .eof, .full, .proto, .faulted, .badcmd, .trunc, .cklen, .ckpay, .sizeovf] : List Status).map
      Status.code = [0x0, 0x1, 0x2, 0x3, 0x4, 0x5, 0x6, 0x8, 0x9, 0xA, 0xB] ∧
  ([.ok, .noRecord, .eof, .full, .proto, .faulted, .badcmd, .trunc, .cklen, .ckpay, .sizeovf] : List Status).map
      Status.kind = [.success, .noResult, .noResult, .refused, .refused, .refused, .refused,
        .failure, .failure, .failure, .failure] ∧
  ∀ st : Status, st.code ≠ 0x7 ∧ st.code.toNat < 0xC ∧ (st.code.getLsbD 3 = true ↔ st.kind = .failure)

/-- A refused command changes no state, emits no bytes and delivers no record (R200, R211). Derived: R211 also lists
causes, which other statements say. -/
def Obligations.RefusedCommandsChangeNothing : Prop :=
  ∀ (i : Instr) (s t : State) (r : Response), exec i s = .next t → t.outbox = s.outbox ++ [r] →
    r.status.kind = .refused →
    t = { s with outbox := s.outbox ++ [⟨r.status, 0, [], []⟩] }

/-- Each unit's commands change that unit's registers only, and neither the inbox nor the capacity; SYS changes none
(R20, R56). Derived: it is half of what R20 says. -/
def Obligations.UnitsOwnTheirRegisters : Prop :=
  ∀ (i : Instr) (s t : State), exec i s = .next t →
    (unitOf i ≠ .ce → t.ceCrc = s.ceCrc) ∧
    (unitOf i ≠ .rf → t.rfRegs = s.rfRegs) ∧
    (unitOf i ≠ .sp → t.spRegs = s.spRegs) ∧
    t.inbox = s.inbox ∧ t.maxLen = s.maxLen

/-- The frame of the buffer, byte by byte: only an accepted `SP.PUSH` adds a byte, at the end; only deliveries move
the bytes, all by what was consumed; only `SP.CLEAR` discards (R52). Derived. -/
def Obligations.BufferFrame : Prop :=
  ∀ (i : Instr) (s t : State), exec i s = .next t →
    ((∀ b, i ≠ .spPush b) → i ≠ .spDecode1 → i ≠ .spDecodeall → i ≠ .spClear →
      ∀ k, readBuf t k = readBuf s k) ∧
    (∀ b, i = .spPush b →
      (∀ k, k ≠ s.spBuf.length → readBuf t k = readBuf s k) ∧
      (t.spBuf.length ≠ s.spBuf.length → readBuf t s.spBuf.length = some b)) ∧
    ((i = .spDecode1 ∨ i = .spDecodeall) →
      ∃ n, n ≤ s.spBuf.length ∧ t.spOffset = s.spOffset + BitVec.ofNat 64 n ∧
        ∀ k, readBuf t k = readBuf s (k + n)) ∧
    (i = .spClear → ∀ k, readBuf t k = none)

/-- Commands of different units commute: two sequences without SYS commands that agree unit by unit leave the same
registers and give each unit the same responses (R59). Derived (marked so in R59). -/
def Obligations.UnitsCommute : Prop :=
  ∀ (cs cs' : List Instr) (s : State),
    (∀ i ∈ cs, unitOf i ≠ .sys) → (∀ i ∈ cs', unitOf i ≠ .sys) →
    (∀ u : HwUnit, unitCmds u cs = unitCmds u cs') →
    ∃ rs rs' t t', Ran cs s rs t ∧ Ran cs' s rs' t' ∧ t.registers = t'.registers ∧
      ∀ u : HwUnit, unitResponses u (cs.zip rs) = unitResponses u (cs'.zip rs')

/-- `SYS.RDREG` commutes with every command of a unit that does not own the register it reads (R59). Derived (marked so
in R59). -/
def Obligations.RdregCommutesWithOtherUnits : Prop :=
  ∀ (n : Byte) (i : Instr) (s : State), regOwner n ≠ some (unitOf i) →
    ∃ r r' t, Ran [.sysRdreg n, i] s [r, r'] t ∧
      ∃ t', Ran [i, .sysRdreg n] s [r', r] t' ∧ t'.registers = t.registers
end

