-- ==== Sys2Proof/Laws/Bytes.lean ====
section
/-! SUPPORT. Byte sequences: lengths, slices, and that the little-endian bytes of a number hold that number. -/

namespace Sys2Proof.Machine

@[simp] theorem le32_length (v : U32) : (le32 v).length = 4 := rfl

@[simp] theorem le64_length (v : U64) : (le64 v).length = 8 := rfl

@[simp] theorem maskedChecksum_length (s : List Byte) : (maskedChecksum s).length = 4 := rfl

@[simp] theorem slice_length (s : List Byte) (i j : Nat) :
    (slice s i j).length = min (j - i) (s.length - i) := by simp [slice]

/-- A slice that ends inside the front part is a slice of the front part. -/
theorem slice_append_left (s t : List Byte) (i j : Nat) (h : j ≤ s.length) :
    slice (s ++ t) i j = slice s i j := by
  simp only [slice]
  by_cases hij : i ≤ j
  · rw [List.drop_append_of_le_length (by omega), List.take_append_of_le_length (by simp; omega)]
  · simp [show j - i = 0 by omega]

/-- The slices `[i..j)` and `[j..k)` side by side are the slice `[i..k)`. -/
theorem slice_append_slice (s : List Byte) (i j k : Nat) (hij : i ≤ j) (hjk : j ≤ k) :
    slice s i j ++ slice s j k = slice s i k := by
  have hk : k - i = (j - i) + (k - j) := by omega
  have hj : s.drop j = (s.drop i).drop (j - i) := by rw [List.drop_drop]; congr 1; omega
  simp only [slice]
  rw [hk, List.take_add, hj]

theorem slice_zero (s : List Byte) (j : Nat) : slice s 0 j = s.take j := by simp [slice]

theorem fromLe_lt (s : List Byte) : fromLe s < 256 ^ s.length := by
  induction s with
  | nil => simp [fromLe]
  | cons b rest ih =>
    have hb := b.isLt
    simp only [fromLe, List.length_cons, Nat.pow_succ]
    omega

/-- Eight bytes hold a `u64`. -/
theorem fromLe_lt_u64 (s : List Byte) (h : s.length = 8) : fromLe s < 2 ^ 64 := by
  have := fromLe_lt s
  rw [h] at this
  simpa using this

/-- `from_le64(le64(v))` is `v` (R10, R72). -/
theorem fromLe_le64 (v : U64) : fromLe (le64 v) = v.toNat := by
  simp only [le64, fromLe, BitVec.extractLsb'_toNat, Nat.shiftRight_eq_div_pow]
  have := v.isLt
  omega

theorem fromLe_inj : ∀ (s t : List Byte), s.length = t.length → fromLe s = fromLe t → s = t
  | [], [], _, _ => rfl
  | b :: s, c :: t, hl, h => by
    have hb := b.isLt
    have hc := c.isLt
    simp only [fromLe] at h
    have h1 : b = c := BitVec.eq_of_toNat_eq (by omega)
    have h2 := fromLe_inj s t (by simpa using hl) (by subst h1; omega)
    rw [h1, h2]
  | [], _ :: _, hl, _ => by simp at hl
  | _ :: _, [], hl, _ => by simp at hl

/-- `le64(from_le64(s))` is `s` for eight bytes (R72). -/
theorem le64_fromLe (s : List Byte) (h : s.length = 8) : le64 (BitVec.ofNat 64 (fromLe s)) = s := by
  apply fromLe_inj _ _ (by simp [h])
  rw [fromLe_le64, BitVec.toNat_ofNat, Nat.mod_eq_of_lt (fromLe_lt_u64 s h)]

end Sys2Proof.Machine
end

