-- ==== Sys2Proof/Laws/State.lean ====
section
/-! SUPPORT. One lemma per field of State per update, so that no proof unfolds a record update. -/

namespace Sys2Proof.Machine

section
variable (s : State)

@[simp] theorem emit_ceCrc (r : Response) : (emit s r).ceCrc = s.ceCrc := rfl
@[simp] theorem emit_rfPhase (r : Response) : (emit s r).rfPhase = s.rfPhase := rfl
@[simp] theorem emit_rfLen (r : Response) : (emit s r).rfLen = s.rfLen := rfl
@[simp] theorem emit_rfRem (r : Response) : (emit s r).rfRem = s.rfRem := rfl
@[simp] theorem emit_rfCrc (r : Response) : (emit s r).rfCrc = s.rfCrc := rfl
@[simp] theorem emit_spBuf (r : Response) : (emit s r).spBuf = s.spBuf := rfl
@[simp] theorem emit_spOffset (r : Response) : (emit s r).spOffset = s.spOffset := rfl
@[simp] theorem emit_spStrict (r : Response) : (emit s r).spStrict = s.spStrict := rfl
@[simp] theorem emit_spEoi (r : Response) : (emit s r).spEoi = s.spEoi := rfl
@[simp] theorem emit_spErr (r : Response) : (emit s r).spErr = s.spErr := rfl
@[simp] theorem emit_maxLen (r : Response) : (emit s r).maxLen = s.maxLen := rfl
@[simp] theorem emit_inbox (r : Response) : (emit s r).inbox = s.inbox := rfl
@[simp] theorem emit_outbox (r : Response) : (emit s r).outbox = s.outbox ++ [r] := rfl

@[simp] theorem appendByte_ceCrc (b : Byte) : (appendByte b s).ceCrc = s.ceCrc := rfl
@[simp] theorem appendByte_rfPhase (b : Byte) : (appendByte b s).rfPhase = s.rfPhase := rfl
@[simp] theorem appendByte_rfLen (b : Byte) : (appendByte b s).rfLen = s.rfLen := rfl
@[simp] theorem appendByte_rfRem (b : Byte) : (appendByte b s).rfRem = s.rfRem := rfl
@[simp] theorem appendByte_rfCrc (b : Byte) : (appendByte b s).rfCrc = s.rfCrc := rfl
@[simp] theorem appendByte_spBuf (b : Byte) : (appendByte b s).spBuf = s.spBuf ++ [b] := rfl
@[simp] theorem appendByte_spOffset (b : Byte) : (appendByte b s).spOffset = s.spOffset := rfl
@[simp] theorem appendByte_spStrict (b : Byte) : (appendByte b s).spStrict = s.spStrict := rfl
@[simp] theorem appendByte_spEoi (b : Byte) : (appendByte b s).spEoi = s.spEoi := rfl
@[simp] theorem appendByte_spErr (b : Byte) : (appendByte b s).spErr = s.spErr := rfl
@[simp] theorem appendByte_maxLen (b : Byte) : (appendByte b s).maxLen = s.maxLen := rfl
@[simp] theorem appendByte_inbox (b : Byte) : (appendByte b s).inbox = s.inbox := rfl
@[simp] theorem appendByte_outbox (b : Byte) : (appendByte b s).outbox = s.outbox := rfl

@[simp] theorem consume_ceCrc (n : Nat) : (consume n s).ceCrc = s.ceCrc := rfl
@[simp] theorem consume_rfPhase (n : Nat) : (consume n s).rfPhase = s.rfPhase := rfl
@[simp] theorem consume_rfLen (n : Nat) : (consume n s).rfLen = s.rfLen := rfl
@[simp] theorem consume_rfRem (n : Nat) : (consume n s).rfRem = s.rfRem := rfl
@[simp] theorem consume_rfCrc (n : Nat) : (consume n s).rfCrc = s.rfCrc := rfl
@[simp] theorem consume_spBuf (n : Nat) : (consume n s).spBuf = s.spBuf.drop n := rfl
@[simp] theorem consume_spOffset (n : Nat) : (consume n s).spOffset = s.spOffset + BitVec.ofNat 64 n := rfl
@[simp] theorem consume_spStrict (n : Nat) : (consume n s).spStrict = s.spStrict := rfl
@[simp] theorem consume_spEoi (n : Nat) : (consume n s).spEoi = s.spEoi := rfl
@[simp] theorem consume_spErr (n : Nat) : (consume n s).spErr = s.spErr := rfl
@[simp] theorem consume_maxLen (n : Nat) : (consume n s).maxLen = s.maxLen := rfl
@[simp] theorem consume_inbox (n : Nat) : (consume n s).inbox = s.inbox := rfl
@[simp] theorem consume_outbox (n : Nat) : (consume n s).outbox = s.outbox := rfl

@[simp] theorem clearParser_ceCrc : (clearParser s).ceCrc = s.ceCrc := rfl
@[simp] theorem clearParser_rfPhase : (clearParser s).rfPhase = s.rfPhase := rfl
@[simp] theorem clearParser_rfLen : (clearParser s).rfLen = s.rfLen := rfl
@[simp] theorem clearParser_rfRem : (clearParser s).rfRem = s.rfRem := rfl
@[simp] theorem clearParser_rfCrc : (clearParser s).rfCrc = s.rfCrc := rfl
@[simp] theorem clearParser_spBuf : (clearParser s).spBuf = [] := rfl
@[simp] theorem clearParser_spOffset : (clearParser s).spOffset = 0 := rfl
@[simp] theorem clearParser_spStrict : (clearParser s).spStrict = s.spStrict := rfl
@[simp] theorem clearParser_spEoi : (clearParser s).spEoi = false := rfl
@[simp] theorem clearParser_spErr : (clearParser s).spErr = 0 := rfl
@[simp] theorem clearParser_maxLen : (clearParser s).maxLen = s.maxLen := rfl
@[simp] theorem clearParser_inbox : (clearParser s).inbox = s.inbox := rfl
@[simp] theorem clearParser_outbox : (clearParser s).outbox = s.outbox := rfl

@[simp] theorem applyReset_ceCrc : (applyReset s).ceCrc = 0xFFFFFFFF := rfl
@[simp] theorem applyReset_rfPhase : (applyReset s).rfPhase = .idle := rfl
@[simp] theorem applyReset_rfLen : (applyReset s).rfLen = 0 := rfl
@[simp] theorem applyReset_rfRem : (applyReset s).rfRem = 0 := rfl
@[simp] theorem applyReset_rfCrc : (applyReset s).rfCrc = 0xFFFFFFFF := rfl
@[simp] theorem applyReset_spBuf : (applyReset s).spBuf = [] := rfl
@[simp] theorem applyReset_spOffset : (applyReset s).spOffset = 0 := rfl
@[simp] theorem applyReset_spStrict : (applyReset s).spStrict = false := rfl
@[simp] theorem applyReset_spEoi : (applyReset s).spEoi = false := rfl
@[simp] theorem applyReset_spErr : (applyReset s).spErr = 0 := rfl
@[simp] theorem applyReset_maxLen : (applyReset s).maxLen = s.maxLen := rfl
@[simp] theorem applyReset_inbox : (applyReset s).inbox = s.inbox := rfl
@[simp] theorem applyReset_outbox : (applyReset s).outbox = s.outbox := rfl

@[simp] theorem takeEvent_ceCrc (rest : List PortEvent) : (takeEvent rest s).ceCrc = s.ceCrc := rfl
@[simp] theorem takeEvent_rfPhase (rest : List PortEvent) : (takeEvent rest s).rfPhase = s.rfPhase := rfl
@[simp] theorem takeEvent_rfLen (rest : List PortEvent) : (takeEvent rest s).rfLen = s.rfLen := rfl
@[simp] theorem takeEvent_rfRem (rest : List PortEvent) : (takeEvent rest s).rfRem = s.rfRem := rfl
@[simp] theorem takeEvent_rfCrc (rest : List PortEvent) : (takeEvent rest s).rfCrc = s.rfCrc := rfl
@[simp] theorem takeEvent_spBuf (rest : List PortEvent) : (takeEvent rest s).spBuf = s.spBuf := rfl
@[simp] theorem takeEvent_spOffset (rest : List PortEvent) : (takeEvent rest s).spOffset = s.spOffset := rfl
@[simp] theorem takeEvent_spStrict (rest : List PortEvent) : (takeEvent rest s).spStrict = s.spStrict := rfl
@[simp] theorem takeEvent_spEoi (rest : List PortEvent) : (takeEvent rest s).spEoi = s.spEoi := rfl
@[simp] theorem takeEvent_spErr (rest : List PortEvent) : (takeEvent rest s).spErr = s.spErr := rfl
@[simp] theorem takeEvent_maxLen (rest : List PortEvent) : (takeEvent rest s).maxLen = s.maxLen := rfl
@[simp] theorem takeEvent_inbox (rest : List PortEvent) : (takeEvent rest s).inbox = rest := rfl
@[simp] theorem takeEvent_outbox (rest : List PortEvent) : (takeEvent rest s).outbox = s.outbox := rfl

end

@[simp] theorem bare_status (st : Status) : (Response.bare st).status = st := rfl
@[simp] theorem bare_value (st : Status) : (Response.bare st).value = 0 := rfl
@[simp] theorem bare_bytes (st : Status) : (Response.bare st).bytes = [] := rfl
@[simp] theorem bare_records (st : Status) : (Response.bare st).records = [] := rfl

end Sys2Proof.Machine
end

