-- ==== Sys2Proof/Laws/Ops.lean ====
section
/-! SUPPORT. What each shared operation can do, said once: answering, the FAULTED test, `frame`, one decode, the loop of
`SP.DECODEALL`, and that every buffer operation keeps the buffer well-formed. -/

namespace Sys2Proof.Machine

theorem answer_eq (p : State × Response) : answer p = .next (emit p.1 p.2) := rfl

theorem faulted_iff (s : State) : faulted s = true ↔ s.spErr ≠ 0 := by simp [faulted]

theorem unlessFaulted_faulted {s : State} (h : s.spErr ≠ 0) (body : State × Response) :
    unlessFaulted s body = refuse .faulted s := by simp [unlessFaulted, (faulted_iff s).2 h]

theorem unlessFaulted_ready {s : State} (h : s.spErr = 0) (body : State × Response) :
    unlessFaulted s body = body := by simp [unlessFaulted, faulted, h]

theorem bufCap_eq (s : State) : s.bufCap = s.maxLen.val + 16 := rfl

theorem lengthField_eq (buf : List Byte) : lengthField buf = buf.take 8 := slice_zero buf 8

/-! ### The frame-boundary detector -/

theorem frame_short_iff (m : Nat) (buf : List Byte) : frame m buf = .short ↔ buf.length < 8 := by
  simp only [frame]
  grind

theorem frame_tooLong_iff (m : Nat) (buf : List Byte) (l : Nat) :
    frame m buf = .tooLong l ↔ 8 ≤ buf.length ∧ l = fromLe (buf.take 8) ∧ m < l := by
  simp only [frame, lengthField_eq]
  grind

theorem frame_incomplete_iff (m : Nat) (buf : List Byte) (l : Nat) :
    frame m buf = .incomplete l ↔
      8 ≤ buf.length ∧ l = fromLe (buf.take 8) ∧ l ≤ m ∧ buf.length < 16 + l := by
  simp only [frame, lengthField_eq]
  grind

theorem frame_whole_iff (m : Nat) (buf : List Byte) (l : Nat) :
    frame m buf = .whole l ↔
      8 ≤ buf.length ∧ l = fromLe (buf.take 8) ∧ l ≤ m ∧ 16 + l ≤ buf.length := by
  simp only [frame, lengthField_eq]
  grind

/-! ### One decode -/

/-- Everything one `SP.DECODE1` can do (R154). -/
theorem decode1_cases (s : State) :
    (s.spErr ≠ 0 ∧ decode1 s = refuse .faulted s) ∨
    (s.spErr = 0 ∧
      ((∃ l, frame s.maxLen.val s.spBuf = .tooLong l ∧ decode1 s = raiseFault .sizeovf s) ∨
       ((frame s.maxLen.val s.spBuf = .short ∨ ∃ l, frame s.maxLen.val s.spBuf = .incomplete l) ∧
          decode1 s = lacking s) ∨
       (∃ l, frame s.maxLen.val s.spBuf = .whole l ∧ s.spStrict = true ∧
          ((verify s.spBuf l = .badLen ∧ decode1 s = raiseFault .cklen s) ∨
           (verify s.spBuf l = .badPay ∧ decode1 s = raiseFault .ckpay s))) ∨
       (∃ l, frame s.maxLen.val s.spBuf = .whole l ∧
          (s.spStrict = true → verify s.spBuf l = .good) ∧ decode1 s = deliver l s))) := by
  by_cases h : s.spErr = 0
  · refine .inr ⟨h, ?_⟩
    simp only [decode1, unlessFaulted_ready h]
    cases hf : frame s.maxLen.val s.spBuf with
    | short => simp
    | tooLong l => simp
    | incomplete l => simp
    | whole l =>
      cases hs : s.spStrict with
      | false => simp
      | true => cases hv : verify s.spBuf l <;> simp [hv]
  · exact .inl ⟨h, unlessFaulted_faulted h _⟩

/-- The three things a decode that lacks bytes can do (R157). -/
theorem lacking_cases (s : State) :
    (s.spEoi = false ∧ lacking s = (s, Response.bare .noRecord)) ∨
    (s.spEoi = true ∧ s.spBuf = [] ∧ lacking s = (s, Response.bare .eof)) ∨
    (s.spEoi = true ∧ s.spBuf ≠ [] ∧ lacking s = raiseFault .trunc s) := by
  cases he : s.spEoi with
  | false => simp [lacking, he]
  | true => by_cases hb : s.spBuf = [] <;> simp [lacking, he, hb]

/-- One decode changes the buffer, the cursor and the fault register only. -/
theorem decode1_frame (s : State) :
    (decode1 s).1 = { s with
      spBuf := (decode1 s).1.spBuf, spOffset := (decode1 s).1.spOffset, spErr := (decode1 s).1.spErr } := by
  rcases decode1_cases s with ⟨_, h⟩ | ⟨_, ⟨_, _, h⟩ | ⟨_, h⟩ | ⟨_, _, _, ⟨_, h⟩ | ⟨_, h⟩⟩ | ⟨_, _, _, h⟩⟩
  · rw [h]; rfl
  · rw [h]; rfl
  · rcases lacking_cases s with ⟨_, hl⟩ | ⟨_, _, hl⟩ | ⟨_, _, hl⟩ <;> rw [h, hl] <;> rfl
  · rw [h]; rfl
  · rw [h]; rfl
  · rw [h]; rfl

/-- A decode answers OK exactly when it delivers a whole record (R154, R156). -/
theorem decode1_ok {s : State} (h : (decode1 s).2.status = .ok) :
    s.spErr = 0 ∧ ∃ l, frame s.maxLen.val s.spBuf = .whole l ∧
      (s.spStrict = true → verify s.spBuf l = .good) ∧ decode1 s = deliver l s := by
  rcases decode1_cases s with ⟨_, hd⟩ | ⟨he, ⟨_, _, hd⟩ | ⟨_, hd⟩ | ⟨_, _, _, ⟨_, hd⟩ | ⟨_, hd⟩⟩ | ⟨l, h1, h2, hd⟩⟩
  · rw [hd] at h; cases h
  · rw [hd] at h; cases h
  · rcases lacking_cases s with ⟨_, hl⟩ | ⟨_, _, hl⟩ | ⟨_, _, hl⟩ <;> (rw [hd, hl] at h; cases h)
  · rw [hd] at h; cases h
  · rw [hd] at h; cases h
  · exact ⟨he, l, h1, h2, hd⟩

/-! ### The loop of `SP.DECODEALL` -/

theorem decodeAllLoop_stop (fuel : Nat) (sum : U64) (recs : List (List Byte)) (s : State)
    (h : (decode1 s).2.status ≠ .ok) :
    decodeAllLoop fuel sum recs s = finishAll sum recs (decode1 s) := by
  cases fuel with
  | zero => rfl
  | succ n => simp [decodeAllLoop, h]

theorem decodeAllLoop_turn (fuel : Nat) (sum : U64) (recs : List (List Byte)) (s : State)
    (h : (decode1 s).2.status = .ok) :
    decodeAllLoop (fuel + 1) sum recs s =
      decodeAllLoop fuel (sum + (decode1 s).2.value) (recs ++ (decode1 s).2.records) (decode1 s).1 := by
  simp [decodeAllLoop, h]

/-- What was collected before the loop stands in front of what the loop collects. -/
theorem decodeAllLoop_collected (fuel : Nat) : ∀ (sum : U64) (recs : List (List Byte)) (s : State),
    decodeAllLoop fuel sum recs s =
      ((decodeAllLoop fuel 0 [] s).1,
        ⟨(decodeAllLoop fuel 0 [] s).2.status, sum + (decodeAllLoop fuel 0 [] s).2.value, [],
          recs ++ (decodeAllLoop fuel 0 [] s).2.records⟩) := by
  induction fuel with
  | zero => intro sum recs s; simp [decodeAllLoop, finishAll]
  | succ n ih =>
    intro sum recs s
    by_cases h : (decode1 s).2.status = .ok
    · rw [decodeAllLoop_turn _ _ _ _ h, decodeAllLoop_turn _ _ _ _ h, ih, ih (0 + _)]
      simp [BitVec.add_assoc]
    · rw [decodeAllLoop_stop _ _ _ _ h, decodeAllLoop_stop _ _ _ _ h]
      simp [finishAll]

/-- Every OK turn removes at least 16 bytes (R159). -/
theorem decode1_ok_shorter {s : State} (h : (decode1 s).2.status = .ok) :
    (decode1 s).1.spBuf.length + 16 ≤ s.spBuf.length := by
  obtain ⟨_, l, hf, _, hd⟩ := decode1_ok h
  have := (frame_whole_iff _ _ _).mp hf
  rw [hd]
  simp only [deliver, consume_spBuf, List.length_drop]
  omega

/-- Fuel beyond what the buffer can use changes nothing. -/
theorem decodeAllLoop_fuel (fuel : Nat) : ∀ (fuel' : Nat) (sum : U64) (recs : List (List Byte)) (s : State),
    s.spBuf.length < 16 * (fuel + 1) → s.spBuf.length < 16 * (fuel' + 1) →
    decodeAllLoop fuel sum recs s = decodeAllLoop fuel' sum recs s := by
  induction fuel with
  | zero =>
    intro fuel' sum recs s h _
    have hno : (decode1 s).2.status ≠ .ok := fun hok => by have := decode1_ok_shorter hok; omega
    rw [decodeAllLoop_stop _ _ _ _ hno, decodeAllLoop_stop _ _ _ _ hno]
  | succ n ih =>
    intro fuel' sum recs s h h'
    by_cases hok : (decode1 s).2.status = .ok
    · have := decode1_ok_shorter hok
      obtain ⟨m, rfl⟩ : ∃ m, fuel' = m + 1 := ⟨fuel' - 1, by omega⟩
      rw [decodeAllLoop_turn _ _ _ _ hok, decodeAllLoop_turn _ _ _ _ hok]
      exact ih m _ _ _ (by omega) (by omega)
    · rw [decodeAllLoop_stop _ _ _ _ hok, decodeAllLoop_stop _ _ _ _ hok]

/-! ### The buffer stays well-formed -/

theorem wf_iff (s : State) : Memory.wf s = true ↔ s.spBuf.length ≤ s.bufCap := by simp [Memory.wf]

theorem appendByte_wf (b : Byte) (s : State) (h : s.spBuf.length < s.bufCap) :
    Memory.wf (appendByte b s) = true := by
  simp only [wf_iff, State.bufCap, appendByte_spBuf, appendByte_maxLen, List.length_append, List.length_singleton] at h ⊢
  exact h

theorem consume_wf (n : Nat) (s : State) (h : Memory.wf s = true) : Memory.wf (consume n s) = true := by
  simp only [wf_iff, State.bufCap, consume_spBuf, consume_maxLen, List.length_drop] at h ⊢
  omega

theorem clearParser_wf (s : State) : Memory.wf (clearParser s) = true := by simp [wf_iff]

theorem applyReset_wf (s : State) : Memory.wf (applyReset s) = true := by simp [wf_iff]

theorem reset_wf : Memory.wf State.reset = true := by simp [wf_iff, State.reset, State.resetWith]

end Sys2Proof.Machine
end

