-- ==== Sys2Proof/Laws/Run.lean ====
section
/-! SUPPORT. Every command answers, what its unit owns, and how command sequences run. -/

namespace Sys2Proof.Machine

/-- Every command answers: `exec` gives a state and a response together, and neither port is touched before the
response leaves (R56, R243). -/
theorem exec_answers (i : Instr) (s : State) :
    ∃ p, exec i s = answer p ∧ p.1.outbox = s.outbox ∧ p.1.inbox = s.inbox ∧ p.1.maxLen = s.maxLen := by
  have hloop : ∀ (fuel : Nat) (sum : U64) (recs : List (List Byte)) (s : State),
      (decodeAllLoop fuel sum recs s).1.outbox = s.outbox ∧
      (decodeAllLoop fuel sum recs s).1.inbox = s.inbox ∧
      (decodeAllLoop fuel sum recs s).1.maxLen = s.maxLen := by
    intro fuel
    induction fuel with
    | zero => intro sum recs s; rw [decodeAllLoop, finishAll, decode1_frame]; simp
    | succ n ih =>
      intro sum recs s
      by_cases h : (decode1 s).2.status = .ok
      · rw [decodeAllLoop_turn _ _ _ _ h]
        obtain ⟨h1, h2, h3⟩ := ih (sum + (decode1 s).2.value) (recs ++ (decode1 s).2.records) (decode1 s).1
        rw [h1, h2, h3, decode1_frame]; simp
      · rw [decodeAllLoop_stop _ _ _ _ h, finishAll, decode1_frame]; simp
  cases i with
  | sysRdreg n =>
    simp only [exec, execSysRdreg]
    cases regValue s n with
    | none => exact ⟨_, rfl, rfl, rfl, rfl⟩
    | some v => exact ⟨_, rfl, rfl, rfl, rfl⟩
  | ceInit => exact ⟨_, rfl, rfl, rfl, rfl⟩
  | ceUpdate b => exact ⟨_, rfl, rfl, rfl, rfl⟩
  | ceFinal => exact ⟨_, rfl, rfl, rfl, rfl⟩
  | rfStart len =>
    simp only [exec, execRfStart]
    split
    · exact ⟨_, rfl, rfl, rfl, rfl⟩
    · split <;> exact ⟨_, rfl, rfl, rfl, rfl⟩
  | rfData b =>
    simp only [exec, execRfData]
    split
    · exact ⟨_, rfl, rfl, rfl, rfl⟩
    · split
      · exact ⟨_, rfl, rfl, rfl, rfl⟩
      · split <;> exact ⟨_, rfl, rfl, rfl, rfl⟩
  | spPush b =>
    refine ⟨_, rfl, ?_⟩
    simp only [unlessFaulted]
    split
    · exact ⟨rfl, rfl, rfl⟩
    · split
      · exact ⟨rfl, rfl, rfl⟩
      · split <;> exact ⟨rfl, rfl, rfl⟩
  | spDecode1 => exact ⟨_, rfl, by rw [decode1_frame], by rw [decode1_frame], by rw [decode1_frame]⟩
  | spDecodeall =>
    refine ⟨_, rfl, ?_⟩
    simp only [decodeAll, unlessFaulted]
    split
    · exact ⟨rfl, rfl, rfl⟩
    · exact hloop _ _ _ _
  | spVerify =>
    refine ⟨_, rfl, ?_⟩
    simp only [unlessFaulted]
    split
    · exact ⟨rfl, rfl, rfl⟩
    · split
      · exact ⟨rfl, rfl, rfl⟩
      · exact ⟨rfl, rfl, rfl⟩
      · exact ⟨rfl, rfl, rfl⟩
      · split <;> exact ⟨rfl, rfl, rfl⟩
  | spEnd =>
    refine ⟨_, rfl, ?_⟩
    simp only [unlessFaulted]
    split <;> exact ⟨rfl, rfl, rfl⟩
  | spClear => exact ⟨_, rfl, rfl, rfl, rfl⟩
  | spSetmode b =>
    refine ⟨_, rfl, ?_⟩
    simp only [unlessFaulted]
    split <;> exact ⟨rfl, rfl, rfl⟩

theorem runCmds_nil (s : State) : runCmds [] s = .next s := rfl

theorem runCmds_cons {i : Instr} {s t : State} (rest : List Instr) (h : exec i s = .next t) :
    runCmds (i :: rest) s = runCmds rest t := by simp [runCmds, h]

theorem runCmds_append (cs cs' : List Instr) : ∀ {s t : State}, runCmds cs s = .next t →
    runCmds (cs ++ cs') s = runCmds cs' t := by
  induction cs with
  | nil => intro s t h; cases h; rfl
  | cons i rest ih =>
    intro s t h
    obtain ⟨p, hp, -⟩ := exec_answers i s
    rw [List.cons_append, runCmds_cons _ hp]
    rw [runCmds_cons _ hp] at h
    exact ih h

/-- A run of one step and more, after a step that answered. -/
theorem core_run_next (k : Nat) {s t : State} (h : step s = .next t) :
    Host.Core.run core (k + 1) s = Host.Core.run core k t := by
  have key : ∀ (M : Host.Core) (a b : M.State), M.step a = .next b → M.run (k + 1) a = M.run k b := by
    intro M a b hab
    simp only [Host.Core.run, hab]
  exact key core s t h

theorem Ran.nil (s : State) : Ran [] s [] s := ⟨rfl, by simp, rfl⟩

/-- One command and then a sequence. -/
theorem Ran.cons {i : Instr} {cs : List Instr} {s u t : State} {r : Response} {rs : List Response}
    (hi : exec i s = .next u) (ho : u.outbox = s.outbox ++ [r]) (h : Ran cs u rs t) :
    Ran (i :: cs) s (r :: rs) t := by
  refine ⟨by rw [runCmds_cons _ hi, h.1], ?_, by simp [h.2.2]⟩
  rw [h.2.1, ho]; simp

/-- A sequence that ran began with its first command. -/
theorem Ran.uncons {i : Instr} {cs : List Instr} {s t : State} {rs : List Response}
    (h : Ran (i :: cs) s rs t) :
    ∃ u r rs', exec i s = .next u ∧ u.outbox = s.outbox ++ [r] ∧ rs = r :: rs' ∧ Ran cs u rs' t := by
  obtain ⟨p, hp, hout, -⟩ := exec_answers i s
  obtain ⟨hrun, ho, hl⟩ := h
  obtain ⟨r, rs', rfl⟩ : ∃ r rs', rs = r :: rs' := List.exists_cons_of_length_pos (by simp [hl])
  rw [runCmds_cons _ hp] at hrun
  have hext : ∀ (cs : List Instr) (u t : State), runCmds cs u = .next t → ∃ ys, t.outbox = u.outbox ++ ys := by
    intro cs
    induction cs with
    | nil => intro u t h; cases h; exact ⟨[], by simp⟩
    | cons j rest ih =>
      intro u t h
      obtain ⟨q, hq, hqo, -⟩ := exec_answers j u
      rw [runCmds_cons _ hq] at h
      obtain ⟨ys, hy⟩ := ih _ _ h
      exact ⟨q.2 :: ys, by rw [hy, emit_outbox, hqo]; simp⟩
  obtain ⟨ys, hy⟩ := hext _ _ _ hrun
  rw [emit_outbox, hout, ho, List.append_assoc] at hy
  have := List.append_cancel_left hy
  simp only [List.singleton_append, List.cons.injEq] at this
  obtain ⟨hr, rfl⟩ := this
  refine ⟨_, r, rs', hp, ?_, rfl, hrun, ?_, by simpa using hl⟩
  · rw [emit_outbox, hout, hr]
  · rw [emit_outbox, hout, ho, hr]; simp

/-- A sequence that ran ended with its last command. -/
theorem Ran.unsnoc {i : Instr} {cs : List Instr} : ∀ {s t : State} {rs : List Response},
    Ran (cs ++ [i]) s rs t →
    ∃ u r rs', Ran cs s rs' u ∧ exec i u = .next t ∧ t.outbox = u.outbox ++ [r] ∧ rs = rs' ++ [r] := by
  induction cs with
  | nil =>
    intro s t rs h
    obtain ⟨u, r, rs', hi, ho, rfl, hu, ho', hl⟩ := h.uncons
    cases hu
    exact ⟨s, r, [], Ran.nil s, hi, ho, by rw [List.eq_nil_of_length_eq_zero hl]; rfl⟩
  | cons j cs ih =>
    intro s t rs h
    obtain ⟨v, q, qs, hj, ho, rfl, hrest⟩ := Ran.uncons h
    obtain ⟨u, r, rs', hu, hi, hr, rfl⟩ := ih hrest
    exact ⟨u, r, q :: rs', Ran.cons hj ho hu, hi, hr, rfl⟩

theorem Ran.append {cs cs' : List Instr} {s u t : State} {rs rs' : List Response}
    (h : Ran cs s rs u) (h' : Ran cs' u rs' t) : Ran (cs ++ cs') s (rs ++ rs') t := by
  refine ⟨by rw [runCmds_append _ _ h.1, h'.1], ?_, by simp [h.2.2, h'.2.2]⟩
  rw [h'.2.1, h.2.1, List.append_assoc]

/-- A sequence has one run from a state. -/
theorem Ran.det {cs : List Instr} {s t t' : State} {rs rs' : List Response}
    (h : Ran cs s rs t) (h' : Ran cs s rs' t') : rs = rs' ∧ t = t' := by
  obtain rfl : t = t' := Host.Outcome.next.inj (h.1.symm.trans h'.1)
  exact ⟨List.append_cancel_left (h.2.1.symm.trans h'.2.1), rfl⟩

end Sys2Proof.Machine
end

