-- ==== Sys2Proof/Laws/Local.lean ====
section
/-! SUPPORT. A command of CE, RF or SP reads and writes its own unit's registers only (spec/10_state.md R20): the same
command on another state with the same registers of that unit does the same. -/

namespace Sys2Proof.Machine

/-- The state that has `s`'s parser and everything else of `o`. -/
def withParserOf (s o : State) : State :=
  { o with spBuf := s.spBuf, spOffset := s.spOffset, spStrict := s.spStrict, spEoi := s.spEoi, spErr := s.spErr, maxLen := s.maxLen }

theorem decode1_local (s o : State) :
    decode1 (withParserOf s o) = (withParserOf (decode1 s).1 o, (decode1 s).2) := by
  have hf : faulted (withParserOf s o) = faulted s := rfl
  have hm : (withParserOf s o).maxLen = s.maxLen := rfl
  have hb : (withParserOf s o).spBuf = s.spBuf := rfl
  have hs : (withParserOf s o).spStrict = s.spStrict := rfl
  have he : (withParserOf s o).spEoi = s.spEoi := rfl
  simp only [decode1, unlessFaulted, lacking, hf, hm, hb, hs, he]
  cases faulted s with
  | true => rfl
  | false =>
    cases frame s.maxLen.val s.spBuf with
    | tooLong l => rfl
    | whole l =>
      cases s.spStrict with
      | false => rfl
      | true => cases hv : verify s.spBuf l <;> simp only [hv] <;> rfl
    | short => cases s.spEoi <;> (try by_cases h : s.spBuf = []) <;> simp [*, raiseFault] <;> rfl
    | incomplete l => cases s.spEoi <;> (try by_cases h : s.spBuf = []) <;> simp [*] <;> rfl

theorem decodeAllLoop_local (o : State) (fuel : Nat) : ∀ (sum : U64) (recs : List (List Byte)) (s : State),
    decodeAllLoop fuel sum recs (withParserOf s o) =
      (withParserOf (decodeAllLoop fuel sum recs s).1 o, (decodeAllLoop fuel sum recs s).2) := by
  induction fuel with
  | zero => intro sum recs s; simp only [decodeAllLoop, finishAll, decode1_local]
  | succ n ih => 
    intro sum recs s
    simp only [decodeAllLoop, decode1_local, ih]
    split <;> rfl

theorem exec_sp_local (i : Instr) (h : unitOf i = .sp) (s o : State) :
    ∃ p, exec i s = answer p ∧ exec i (withParserOf s o) = answer (withParserOf p.1 o, p.2) := by
  have hf : faulted (withParserOf s o) = faulted s := rfl
  have hm : (withParserOf s o).maxLen = s.maxLen := rfl
  have hb : (withParserOf s o).spBuf = s.spBuf := rfl
  have he : (withParserOf s o).spEoi = s.spEoi := rfl
  have hc : (withParserOf s o).bufCap = s.bufCap := rfl
  cases i with
  | spPush b =>
    refine ⟨_, rfl, ?_⟩
    simp only [exec, execSpPush, unlessFaulted, hf, hb, he, hc]
    congr 1
    cases faulted s with
    | true => rfl
    | false =>
      cases s.spEoi with
      | true => rfl
      | false => by_cases hl : s.spBuf.length < s.bufCap <;> simp only [hl, if_true, if_false] <;> rfl
  | spDecode1 => exact ⟨_, rfl, by simp only [exec, execSpDecode1, decode1_local]⟩
  | spDecodeall =>
    refine ⟨_, rfl, ?_⟩
    simp only [exec, execSpDecodeall, decodeAll, unlessFaulted, hf, hb, decodeAllLoop_local]
    congr 1
    cases faulted s <;> rfl
  | spVerify =>
    refine ⟨_, rfl, ?_⟩
    simp only [exec, execSpVerify, unlessFaulted, hf, hb, hm]
    congr 1
    cases faulted s with
    | true => rfl
    | false =>
      cases frame s.maxLen.val s.spBuf with
      | tooLong l => rfl
      | short => rfl
      | incomplete l => rfl
      | whole l => cases hv : verify s.spBuf l <;> simp only [hv] <;> rfl
  | spEnd =>
    refine ⟨_, rfl, ?_⟩
    simp only [exec, execSpEnd, unlessFaulted, hf]
    congr 1
    cases faulted s <;> rfl
  | spClear => exact ⟨_, rfl, rfl⟩
  | spSetmode b =>
    refine ⟨_, rfl, ?_⟩
    simp only [exec, execSpSetmode, unlessFaulted, hf]
    congr 1
    cases faulted s <;> rfl
  | _ => simp [unitOf, opcodeOf] at h

theorem exec_ce_local (i : Instr) (h : unitOf i = .ce) (s o : State) :
    ∃ p, exec i s = answer p ∧
      exec i { o with ceCrc := s.ceCrc } = answer ({ o with ceCrc := p.1.ceCrc }, p.2) := by
  cases i with
  | ceInit => exact ⟨_, rfl, rfl⟩
  | ceUpdate b => exact ⟨_, rfl, rfl⟩
  | ceFinal => exact ⟨_, rfl, rfl⟩
  | _ => simp [unitOf, opcodeOf] at h

/-- The state that has `s`'s framer and everything else of `o`. -/
def withFramerOf (s o : State) : State :=
  { o with rfPhase := s.rfPhase, rfLen := s.rfLen, rfRem := s.rfRem, rfCrc := s.rfCrc }

theorem exec_rf_local (i : Instr) (h : unitOf i = .rf) (s o : State) :
    ∃ p, exec i s = answer p ∧ exec i (withFramerOf s o) = answer (withFramerOf p.1 o, p.2) := by
  have hp : (withFramerOf s o).rfPhase = s.rfPhase := rfl
  have hr : (withFramerOf s o).rfRem = s.rfRem := rfl
  have hc : (withFramerOf s o).rfCrc = s.rfCrc := rfl
  cases i with
  | rfStart len =>
    simp only [exec, execRfStart, hp]
    cases s.rfPhase with
    | payload => exact ⟨_, rfl, rfl⟩
    | idle =>
      by_cases hz : len = 0
      · simp only [hz, if_true]; exact ⟨_, rfl, rfl⟩
      · simp only [hz, if_false]; exact ⟨_, rfl, rfl⟩
  | rfData b =>
    simp only [exec, execRfData, hp, hr, hc]
    cases h : s.rfPhase with
    | idle => exact ⟨_, rfl, rfl⟩
    | payload =>
      by_cases he : s.rfRem = 0
      · simp only [he, if_true]; exact ⟨_, rfl, rfl⟩
      · by_cases hz : s.rfRem - 1 = 0
        · simp only [he, hz, if_true, if_false]; exact ⟨_, rfl, rfl⟩
        · simp only [he, hz, if_false]; exact ⟨_, rfl, by simp only [withFramerOf, h]⟩
  | _ => simp [unitOf, opcodeOf] at h

theorem exec_sys_frame (i : Instr) (h : unitOf i = .sys) (s : State) : ∃ r, exec i s = answer (s, r) := by
  cases i with
  | sysRdreg n =>
    simp only [exec, execSysRdreg]
    cases regValue s n with
    | none => exact ⟨_, rfl⟩
    | some v => exact ⟨_, rfl⟩
  | _ => simp [unitOf, opcodeOf] at h

/-- The state that has unit `u`'s registers of `s` and everything else of `o`. -/
def withUnitOf : HwUnit → State → State → State
  | .sys, _, o => o
  | .ce, s, o => { o with ceCrc := s.ceCrc }
  | .rf, s, o => withFramerOf s o
  | .sp, s, o => withParserOf s o

theorem withUnitOf_self (u : HwUnit) (s : State) : withUnitOf u s s = s := by cases u <;> rfl

theorem emit_inj {s t : State} {r r' : Response} (ho : s.outbox = t.outbox) (h : emit s r = emit t r') :
    s = t ∧ r = r' := by
  have h1 : s.outbox ++ [r] = t.outbox ++ [r'] := congrArg State.outbox h
  rw [ho] at h1
  have h2 : r = r' := by simpa using h1
  refine ⟨?_, h2⟩
  have h3 : { emit s r with outbox := s.outbox } = { emit t r' with outbox := t.outbox } := by rw [h, ho]
  exact h3

/-- A command of CE, RF or SP on a state with the same registers of its unit: the same response, the same new
registers, everything else as it was (R20). -/
theorem exec_local (i : Instr) (h : unitOf i ≠ .sys) (s o : State) :
    ∃ p, exec i s = answer p ∧ p.1 = withUnitOf (unitOf i) p.1 s ∧
      exec i (withUnitOf (unitOf i) s o) = answer (withUnitOf (unitOf i) p.1 o, p.2) := by
  have key : ∀ o, ∃ p, exec i s = answer p ∧
      exec i (withUnitOf (unitOf i) s o) = answer (withUnitOf (unitOf i) p.1 o, p.2) := by
    intro o
    cases hu : unitOf i with
    | sys => exact absurd hu h
    | ce => exact exec_ce_local i hu s o
    | rf => exact exec_rf_local i hu s o
    | sp => exact exec_sp_local i hu s o
  obtain ⟨q, hq, hqo, -⟩ := exec_answers i s
  have same : ∀ p, exec i s = answer p → p.1.outbox = s.outbox → p = q := by
    intro p hp hpo
    rw [hq, answer_eq, answer_eq] at hp
    obtain ⟨h1, h2⟩ := emit_inj (by rw [hqo, hpo]) (Host.Outcome.next.inj hp)
    exact Prod.ext h1.symm h2.symm
  have hout : ∀ p, exec i s = answer p → p.2 = q.2 → p.1.outbox = s.outbox := by
    intro p hp h2
    rw [hq, answer_eq, answer_eq] at hp
    have := congrArg State.outbox (Host.Outcome.next.inj hp)
    simp only [emit_outbox, h2] at this
    rw [← List.append_cancel_right this, hqo]
  have hresp : ∀ p, exec i s = answer p → p.2 = q.2 := by
    intro p hp
    rw [hq, answer_eq, answer_eq] at hp
    have := congrArg (fun s => s.outbox.getLast?) (Host.Outcome.next.inj hp)
    simpa using this.symm
  obtain ⟨p, hp, hpo⟩ := key o
  have hpq := same p hp (hout p hp (hresp p hp))
  obtain ⟨p', hp', hps⟩ := key s
  have hpq' := same p' hp' (hout p' hp' (hresp p' hp'))
  subst hpq; subst hpq'
  refine ⟨p', hp, ?_, hpo⟩
  rw [withUnitOf_self] at hps
  have : (withUnitOf (unitOf i) p'.1 s, p'.2) = p' := by
    refine same _ hps ?_
    cases unitOf i <;> rfl
  exact (congrArg Prod.fst this).symm

/-- No command reads or writes the inbox. -/
theorem exec_inbox (i : Instr) (s : State) (x : List PortEvent) :
    ∃ p, exec i s = answer p ∧
      exec i { s with inbox := x } = answer ({ p.1 with inbox := x }, p.2) := by
  by_cases h : unitOf i = .sys
  · cases i with
    | sysRdreg n =>
      have hr : regValue { s with inbox := x } n = regValue s n := rfl
      simp only [exec, execSysRdreg, hr]
      cases regValue s n with
      | none => exact ⟨_, rfl, rfl⟩
      | some v => exact ⟨_, rfl, rfl⟩
    | _ => simp [unitOf, opcodeOf] at h
  · obtain ⟨p, hp, hf, ho⟩ := exec_local i h s { s with inbox := x }
    refine ⟨p, hp, ?_⟩
    have h1 : withUnitOf (unitOf i) s { s with inbox := x } = { s with inbox := x } := by
      cases unitOf i <;> rfl
    have h2 : withUnitOf (unitOf i) p.1 { s with inbox := x } = { p.1 with inbox := x } := by
      rw [hf]; cases unitOf i <;> rfl
    rw [← h1, ho, h2]

end Sys2Proof.Machine
end

