-- ==== Sys2Proof/Laws/Words.lean ====
section
/-! SUPPORT. The fields of a word made of an opcode and an argument, and the word made of its fields. -/

namespace Sys2Proof

@[simp] theorem opcodeField_append (op : Byte) (arg : U64) : opcodeField (op ++ arg) = op := by
  apply BitVec.eq_of_getLsbD_eq
  intro k hk
  simp only [opcodeField, BitVec.getLsbD_extractLsb', BitVec.getLsbD_append]
  simp [hk]

@[simp] theorem argField_append (op : Byte) (arg : U64) : argField (op ++ arg) = arg := by
  apply BitVec.eq_of_getLsbD_eq
  intro k hk
  simp only [argField, BitVec.getLsbD_extractLsb', BitVec.getLsbD_append]
  simp [hk]

theorem decode_append (op : Byte) (arg : U64) : decode (op ++ arg) = decodeFields op arg := by
  simp [decode]

theorem word_eq_fields (w : CmdWord) : opcodeField w ++ argField w = w := by
  apply BitVec.eq_of_getLsbD_eq
  intro k hk
  simp only [BitVec.getLsbD_append, opcodeField, argField, BitVec.getLsbD_extractLsb']
  by_cases h : k < 64
  · simp [h]
  · simp [h, show k - 64 < 8 by omega, show 64 + (k - 64) = k by omega]

/-- The opcode of a command's word is the command's opcode (R75). -/
@[simp] theorem opcodeField_encode (i : Instr) : opcodeField (encode i) = opcodeOf i := opcodeField_append _ _

/-- The argument of a command's word is the command's argument (R75). -/
@[simp] theorem argField_encode (i : Instr) : argField (encode i) = argOf i := argField_append _ _

end Sys2Proof
end

