-- ==== Sys2Proof/Laws/PerInstr.lean ====
section
/-! SUPPORT. The statements made for all instructions, one lemma per constructor. `EncodedWord` says what the word of a
command is made of: its opcode in the top byte, whose unit field is 0 to 3, and no bit of the argument set that the
command's format does not use (spec/30_encoding.md R75 to R77, R82). -/

namespace Sys2Proof.Laws.EncodedWord

/-- The word of `i`: its opcode, a unit that exists, and zeros in every bit the format ignores. -/
def Statement (i : Instr) : Prop :=
  opcodeField (encode i) = opcodeOf i ∧
  (opcodeOf i).extractLsb' 6 2 = 0 ∧
  argField (encode i) &&& ~~~usedArgBits i = 0

/-- A byte operand fills only the bits of formats B and R. -/
theorem byte_operand_fits (b : Byte) : b.setWidth 64 &&& ~~~(0xFF : U64) = 0 := by
  apply BitVec.eq_of_getLsbD_eq
  intro k hk
  by_cases h : k < 8
  · have : ∀ j < 8, (~~~(0xFF#64)).getLsbD j = false := by decide
    simp only [BitVec.getLsbD_and]
    rw [show (~~~(0xFF : U64)).getLsbD k = false from this k h]
    simp
  · simp [BitVec.getLsbD_of_ge b k (by omega)]

/-- Any argument fits a format that uses all 64 bits. -/
theorem any_operand_fits (a : U64) : a &&& ~~~(0xFFFFFFFFFFFFFFFF : U64) = 0 := by
  have : ~~~(0xFFFFFFFFFFFFFFFF : U64) = 0 := by decide
  rw [this]; simp

/-- Bits 7 and 6 of every opcode are zero: its unit is one of the four. -/
theorem unit_exists (i : Instr) : (opcodeOf i).extractLsb' 6 2 = 0 := by
  cases i <;> simp only [opcodeOf] <;> decide

theorem sysRdreg (n : Byte) : Statement (.sysRdreg n) :=
  ⟨opcodeField_encode _, unit_exists _, by rw [argField_encode]; exact byte_operand_fits n⟩

theorem ceInit : Statement .ceInit := ⟨opcodeField_encode _, unit_exists _, by decide⟩

theorem ceUpdate (b : Byte) : Statement (.ceUpdate b) :=
  ⟨opcodeField_encode _, unit_exists _, by rw [argField_encode]; exact byte_operand_fits b⟩

theorem ceFinal : Statement .ceFinal := ⟨opcodeField_encode _, unit_exists _, by decide⟩

theorem rfStart (len : U64) : Statement (.rfStart len) :=
  ⟨opcodeField_encode _, unit_exists _, by rw [argField_encode]; exact any_operand_fits len⟩

theorem rfData (b : Byte) : Statement (.rfData b) :=
  ⟨opcodeField_encode _, unit_exists _, by rw [argField_encode]; exact byte_operand_fits b⟩

theorem spPush (b : Byte) : Statement (.spPush b) :=
  ⟨opcodeField_encode _, unit_exists _, by rw [argField_encode]; exact byte_operand_fits b⟩

theorem spDecode1 : Statement .spDecode1 := ⟨opcodeField_encode _, unit_exists _, by decide⟩

theorem spDecodeall : Statement .spDecodeall := ⟨opcodeField_encode _, unit_exists _, by decide⟩

theorem spVerify : Statement .spVerify := ⟨opcodeField_encode _, unit_exists _, by decide⟩

theorem spEnd : Statement .spEnd := ⟨opcodeField_encode _, unit_exists _, by decide⟩

theorem spClear : Statement .spClear := ⟨opcodeField_encode _, unit_exists _, by decide⟩

theorem spSetmode (strict : Bool) : Statement (.spSetmode strict) :=
  ⟨opcodeField_encode _, unit_exists _, by cases strict <;> decide⟩

end Sys2Proof.Laws.EncodedWord
end

