-- ==== Sys2Proof/Laws/Project.lean ====
section
/-! SUPPORT. What a sequence of commands does to one unit is what that unit's own commands of the sequence do
(spec/20_memory.md R59). -/

namespace Sys2Proof.Machine

theorem withUnitOf_trans (u : HwUnit) (s t o : State) (h : withUnitOf u s t = t) :
    withUnitOf u t o = withUnitOf u s o := by
  rw [← h]; cases u <;> rfl

/-- A command of another unit leaves unit `u`'s registers as they are (R20). -/
theorem exec_other_unit {i : Instr} {u : HwUnit} (h : unitOf i ≠ u) {s : State} {p : State × Response}
    (hp : exec i s = answer p) (hout : p.1.outbox = s.outbox) : withUnitOf u s p.1 = p.1 := by
  have key : ∀ q, exec i s = answer q → q.1.outbox = s.outbox → q.1 = p.1 := by
    intro q hq hqo
    rw [hp, answer_eq, answer_eq] at hq
    exact (emit_inj (by rw [hqo, hout]) (Host.Outcome.next.inj hq)).1.symm
  by_cases hs : unitOf i = .sys
  · obtain ⟨r, hr⟩ := exec_sys_frame i hs s
    rw [← key _ hr rfl, withUnitOf_self]
  · obtain ⟨q, hq, hf, -⟩ := exec_local i hs s s
    have hqo : q.1.outbox = s.outbox := by rw [hf]; cases unitOf i <;> rfl
    rw [← key q hq hqo, hf]
    cases hi : unitOf i <;> cases u <;> first | rfl | exact absurd hi hs | exact absurd hi h

/-- The projection of a run on one unit. -/
theorem Ran.project {u : HwUnit} (hu : u ≠ .sys) : ∀ {cs : List Instr} {s t o : State} {rs : List Response},
    Ran cs s rs t → withUnitOf u s o = o →
    ∃ t', Ran (unitCmds u cs) o (unitResponses u (cs.zip rs)) t' ∧ withUnitOf u t t' = t' := by
  intro cs
  induction cs with
  | nil =>
    intro s t o rs h ho
    obtain ⟨h1, -, h3⟩ := h
    cases h1
    obtain rfl : rs = [] := List.eq_nil_of_length_eq_zero h3
    exact ⟨o, Ran.nil o, ho⟩
  | cons i cs ih =>
    intro s t o rs h ho
    obtain ⟨v, r, rs', hi, hov, rfl, hrest⟩ := h.uncons
    obtain ⟨p, hp, hpo, -⟩ := exec_answers i s
    have hv : v = emit p.1 p.2 := by rw [hp, answer_eq] at hi; exact (Host.Outcome.next.inj hi).symm
    have hr : r = p.2 := by
      rw [hv, emit_outbox, hpo] at hov
      simpa using (List.append_cancel_left hov).symm
    by_cases hiu : unitOf i = u
    · obtain ⟨q, hq, hqf, hqo⟩ := exec_local i (by rw [hiu]; exact hu) s o
      have hqs : q.1.outbox = s.outbox := by rw [hqf]; cases unitOf i <;> rfl
      obtain ⟨hq1, hq2⟩ := emit_inj (t := p.1) (by rw [hqs, hpo])
        (Host.Outcome.next.inj (by rw [← answer_eq, ← answer_eq, ← hq, ← hp]))
      rw [hiu, ho, hq1, hq2] at hqo
      obtain ⟨t', ht', hw⟩ := ih (o := emit (withUnitOf u p.1 o) p.2) hrest (by
        rw [hv]; cases u <;> rfl)
      refine ⟨t', ?_, hw⟩
      have e1 : unitCmds u (i :: cs) = i :: unitCmds u cs := by simp [unitCmds, hiu]
      have e2 : unitResponses u ((i :: cs).zip (r :: rs')) = p.2 :: unitResponses u (cs.zip rs') := by
        simp [unitResponses, hiu, hr]
      rw [e1, e2]
      exact Ran.cons hqo (by cases u <;> rfl) ht'
    · have hsame : withUnitOf u s v = v := by
        have := exec_other_unit hiu hp hpo
        rw [hv]
        cases u with
        | sys => rfl
        | _ => simp only [withUnitOf] at this ⊢; rw [← this]; rfl
      obtain ⟨t', ht', hw⟩ := ih (o := o) hrest (by
        rw [withUnitOf_trans u s v o hsame, ho])
      refine ⟨t', ?_, hw⟩
      have e1 : unitCmds u (i :: cs) = unitCmds u cs := by simp [unitCmds, hiu]
      have e2 : unitResponses u ((i :: cs).zip (r :: rs')) = unitResponses u (cs.zip rs') := by
        simp [unitResponses, hiu]
      rw [e1, e2]
      exact ht'

end Sys2Proof.Machine
end

