-- ==== Sys2Proof/Laws/Streams.lean ====
section
/-! SUPPORT. The streams of spec/20_memory.md R64, one command at a time: what one more command adds to each. -/

namespace Sys2Proof.Machine

@[simp] theorem sinceClear_nil : sinceClear [] = [] := rfl

/-- `SP.CLEAR` begins the parser's streams again. -/
@[simp] theorem sinceClear_clear (xs : List (Instr × Response)) (r : Response) :
    sinceClear (xs ++ [(.spClear, r)]) = [] := by simp [sinceClear]

/-- Any other command continues them. -/
theorem sinceClear_snoc (xs : List (Instr × Response)) {i : Instr} (r : Response) (h : i ≠ .spClear) :
    sinceClear (xs ++ [(i, r)]) = sinceClear xs ++ [(i, r)] := by simp [sinceClear, h]

@[simp] theorem pushedBytes_nil : pushedBytes [] = [] := rfl

@[simp] theorem pushedBytes_clear (xs : List (Instr × Response)) (r : Response) :
    pushedBytes (xs ++ [(.spClear, r)]) = [] := by simp [pushedBytes]

/-- A push adds its byte when it is accepted. -/
theorem pushedBytes_push (xs : List (Instr × Response)) (b : Byte) (r : Response) :
    pushedBytes (xs ++ [(.spPush b, r)]) = pushedBytes xs ++ if r.status = .ok then [b] else [] := by
  simp [pushedBytes, sinceClear_snoc]

/-- Every other command but `SP.CLEAR` adds nothing to the input stream. -/
theorem pushedBytes_other (xs : List (Instr × Response)) {i : Instr} (r : Response)
    (hc : i ≠ .spClear) (hp : ∀ b, i ≠ .spPush b) : pushedBytes (xs ++ [(i, r)]) = pushedBytes xs := by
  simp only [pushedBytes, sinceClear_snoc _ _ hc, List.flatMap_append]
  cases i <;> simp at hc hp ⊢

@[simp] theorem payloadOutput_nil : payloadOutput [] = [] := rfl

/-- The records of an SP response are delivered; no other response delivers any. -/
theorem payloadOutput_snoc (xs : List (Instr × Response)) (i : Instr) (r : Response) :
    payloadOutput (xs ++ [(i, r)]) = payloadOutput xs ++ if unitOf i = .sp then r.records else [] := by
  simp [payloadOutput]

/-- A trace of one more command, split off at its end. -/
theorem zip_snoc {cs : List Instr} {rs : List Response} (i : Instr) (r : Response) (h : rs.length = cs.length) :
    (cs ++ [i]).zip (rs ++ [r]) = cs.zip rs ++ [(i, r)] := by
  rw [List.zip_append h.symm]; rfl

end Sys2Proof.Machine
end

