-- ==== Sys2Proof/Tests/Slice0.lean ====
section
/-! SUPPORT. Tests and witnesses. Expected values are the spec's: V<n> is a vector of spec/95_test_vectors.md, taken
with `BUF_CAP = 64`. `test_` is a check of the model, `witness_<Obligation>` shows states and operands that meet the
hypotheses of that obligation, clause by clause. -/

namespace Sys2Proof.Tests

open Sys2Proof Sys2Proof.Machine

/-- The reset state of the vectors: `BUF_CAP = 64`. -/
def small : State := State.resetWith 48

/-- That state with `b` buffered. -/
def holding (b : List Byte) : State := { small with spBuf := b }

/-- The last response after a step that went on. -/
def answered : Host.Outcome State Fault Refusal → Option Response
  | .next t => t.outbox.getLast?
  | .fault _ => none
  | .refused _ => none

/-- The state after a step that went on. -/
def stateOf : Host.Outcome State Fault Refusal → Option State
  | .next t => some t
  | .fault _ => none
  | .refused _ => none

/-- ENC_ABC of spec/95_test_vectors.md. -/
def encAbc : List Byte :=
  [0x03, 0, 0, 0, 0, 0, 0, 0, 0xB0, 0x99, 0x49, 0x0E, 0x41, 0x42, 0x43, 0x4B, 0xFB, 0x81, 0xF5]

/-- ENC_EMPTY of spec/95_test_vectors.md. -/
def encEmpty : List Byte := [0, 0, 0, 0, 0, 0, 0, 0, 0x29, 0x03, 0x98, 0x07, 0xD8, 0xEA, 0x82, 0xA2]

/-- The buffer of V40: both checksums changed. -/
def badBoth : List Byte :=
  [0x03, 0, 0, 0, 0, 0, 0, 0, 0x30, 0x99, 0x49, 0x0E, 0x41, 0x42, 0x43, 0x5B, 0xFB, 0x81, 0xF5]

/-- The buffer of V38: the payload checksum changed. -/
def badPayload : List Byte :=
  [0x03, 0, 0, 0, 0, 0, 0, 0, 0xB0, 0x99, 0x49, 0x0E, 0x41, 0x42, 0x43, 0x4B, 0xFB, 0x81, 0xF4]

/-! ### Words, written out from R75 to R77 -/

theorem test_words_of_sys_and_engine :
    decode (0b00000001#8 ++ 0#56 ++ 0b00001000#8) = .ok (.sysRdreg 8) ∧
    decode (0b00010000#8 ++ 0#64) = .ok .ceInit ∧
    decode (0b00010001#8 ++ 0#56 ++ 0b01100001#8) = .ok (.ceUpdate 0x61) ∧
    decode (0b00010010#8 ++ 0#64) = .ok .ceFinal := by decide

theorem test_words_of_framer :
    decode (0b00100000#8 ++ 0b10000000#8 ++ 0#48 ++ 0b00000011#8) = .ok (.rfStart 0x8000000000000003) ∧
    decode (0b00100001#8 ++ 0#56 ++ 0b11000011#8) = .ok (.rfData 0xC3) := by decide

theorem test_words_of_parser :
    decode (0b00110000#8 ++ 0#56 ++ 0b10000001#8) = .ok (.spPush 0x81) ∧
    decode (0b00110001#8 ++ 0#64) = .ok .spDecode1 ∧
    decode (0b00110010#8 ++ 0#64) = .ok .spDecodeall ∧
    decode (0b00110011#8 ++ 0#64) = .ok .spVerify ∧
    decode (0b00110100#8 ++ 0#64) = .ok .spEnd ∧
    decode (0b00110101#8 ++ 0#64) = .ok .spClear ∧
    decode (0b00110110#8 ++ 0#63 ++ 0b1#1) = .ok (.spSetmode true) := by decide

theorem test_reserved_words_have_no_command :
    decodeTableWord 72 0x000000000000000000 = none ∧ decodeTableWord 72 0x020000000000000005 = none ∧
    decodeTableWord 72 0x130000000000000000 = none ∧ decodeTableWord 72 0x220000000000000000 = none ∧
    decodeTableWord 72 0x370000000000000000 = none ∧ decodeTableWord 72 0xFFFFFFFFFFFFFFFFFF = none := by decide

/-- R81: a reserved opcode is ill-formed. -/
theorem test_reserved_word_ill_formed :
    CmdWord.wellFormed 0x130000000000000000 = false ∧ CmdWord.assigned 0x130000000000000000 = false := by decide

/-- R82: an ignored bit that is set is ill-formed, one word per format; in format Q no bit is ignored. -/
theorem test_ignored_bits_ill_formed :
    CmdWord.wellFormed 0x100000000000000001 = false ∧ CmdWord.wellFormed 0x110000000000000161 = false ∧
    CmdWord.wellFormed 0x010000000000000109 = false ∧ CmdWord.wellFormed 0x360000000000000002 = false ∧
    CmdWord.wellFormed 0x20FFFFFFFFFFFFFFFF = true := by decide

/-! ### Single steps -/

/-- V50, through `step`: `SYS.RDREG 9` reads `BUF_CAP`. -/
theorem test_rdreg_bufcap :
    answered (step (small.withFetchWord 72 0x010000000000000009)) = some ⟨.ok, 64, [], []⟩ := by decide

/-- V51. -/
theorem test_rdreg_unassigned : answered (exec (.sysRdreg 10) small) = some ⟨.badcmd, 0, [], []⟩ := by decide

/-- V14. -/
theorem test_init_in_mid_message :
    (stateOf (exec .ceInit { small with ceCrc := 0x3E2FBCCF })).map State.ceCrc = some 0xFFFFFFFF := by decide

/-- V5. -/
theorem test_update_first_byte :
    (stateOf (exec (.ceUpdate 0x61) small)).map State.ceCrc = some 0x3E2FBCCF := by decide

/-- V3, its second byte. -/
theorem test_update_second_byte :
    (stateOf (exec (.ceUpdate 0x42) { small with ceCrc := 0x1E923211 })).map State.ceCrc = some 0x426BBB15 := by
  decide

/-- V1. -/
theorem test_final_empty :
    answered (exec .ceFinal small) = some ⟨.ok, 0xA282EAD8, [0xD8, 0xEA, 0x82, 0xA2], []⟩ := by decide

/-- V3. -/
theorem test_final_abc :
    answered (exec .ceFinal { small with ceCrc := 0x77C65680 }) =
      some ⟨.ok, 0xF581FB4B, [0x4B, 0xFB, 0x81, 0xF5], []⟩ := by decide

/-- V21. -/
theorem test_start_empty : answered (exec (.rfStart 0) small) = some ⟨.ok, 0, encEmpty, []⟩ := by decide

/-- V24. -/
theorem test_start_largest :
    answered (exec (.rfStart 0xFFFFFFFFFFFFFFFF) small) =
      some ⟨.ok, 0xFFFFFFFFFFFFFFFF,
        [0xFF, 0xFF, 0xFF, 0xFF, 0xFF, 0xFF, 0xFF, 0xFF, 0xA6, 0x7B, 0x11, 0x3A], []⟩ := by decide

/-- V20, its last byte. -/
theorem test_data_last_byte :
    answered (exec (.rfData 0x43) { small with rfPhase := .payload, rfLen := 3, rfRem := 1, rfCrc := 0x426BBB15 }) =
      some ⟨.ok, 0, [0x43, 0x4B, 0xFB, 0x81, 0xF5], []⟩ := by decide

/-- V20, its first byte. -/
theorem test_data_first_byte :
    (stateOf (exec (.rfData 0x41) { small with rfPhase := .payload, rfLen := 3, rfRem := 3 })).map
      (fun t => (t.rfRem, t.rfCrc, t.rfPhase)) = some (2, 0x1E923211, .payload) := by decide

/-- V44: the buffer is full. -/
theorem test_push_full :
    answered (exec (.spPush 0xAA) (holding (List.replicate 64 0))) = some ⟨.full, 0, [], []⟩ := by decide

/-- V46. -/
theorem test_push_after_end :
    answered (exec (.spPush 1) { small with spEoi := true }) = some ⟨.proto, 0, [], []⟩ := by decide

/-- V48: the cursor wraps. -/
theorem test_decode1_offset_wraps :
    (stateOf (exec .spDecode1 { holding encAbc with spOffset := 0xFFFFFFFFFFFFFFF6 })).map State.spOffset = some 9 := by
  decide

/-- V49: misframing in permissive mode leaves one byte. -/
theorem test_decode1_misframed :
    (stateOf (exec .spDecode1 (holding (0x02 :: encAbc.drop 1)))).map (fun t => (t.outbox, t.spBuf)) =
      some ([⟨.ok, 18, [], [[0x41, 0x42]]⟩], [0xF5]) := by decide

/-- R64: the input stream begins again at `SP.CLEAR`, and a refused push is not in it. -/
theorem test_input_stream_restarts :
    pushedBytes [(.spPush 1, Response.bare .ok), (.spClear, Response.bare .ok), (.spPush 2, Response.bare .ok),
      (.spPush 3, Response.bare .full)] = [2] ∧
    pushedBytes [(.spPush 1, Response.bare .ok), (.spEnd, Response.bare .ok)] = [1] := by decide

/-- V37: a truncated tail after a whole record. -/
theorem test_decodeall_truncated :
    (stateOf (exec .spDecodeall { holding (encAbc ++ encEmpty.take 10) with spEoi := true })).map
      (fun t => (t.outbox, t.spErr)) = some ([⟨.trunc, 19, [], [[0x41, 0x42, 0x43]]⟩], 8) := by decide

/-- V40, strict: nothing is delivered. -/
theorem test_decodeall_strict_cklen :
    (stateOf (exec .spDecodeall { holding badBoth with spStrict := true })).map (fun t => (t.outbox, t.spErr)) =
      some ([⟨.cklen, 0, [], []⟩], 9) := by decide

/-- V38: reported and not latched. -/
theorem test_verify_ckpay :
    (stateOf (exec .spVerify (holding badPayload))).map (fun t => (t.outbox, t.spErr)) =
      some ([⟨.ckpay, 0, [], []⟩], 0) := by decide

/-- V36: after `SP.END` an empty buffer still verifies as NONE. -/
theorem test_verify_empty_after_end :
    answered (exec .spVerify { small with spEoi := true }) = some ⟨.noRecord, 0, [], []⟩ := by decide

/-- V47. -/
theorem test_end_sets_eoi :
    (stateOf (exec .spEnd small)).map spCtrl = some 2 := by decide

/-- V47: the strict bit outlives `SP.CLEAR`. -/
theorem test_clear_keeps_strict :
    (stateOf (exec .spClear { holding encAbc with spStrict := true, spEoi := true, spErr := 8 })).map
      (fun t => (spCtrl t, t.spErr, t.spBuf)) = some (1, 0, []) := by decide

/-- V45: refused while faulted. -/
theorem test_setmode_faulted :
    answered (exec (.spSetmode true) { small with spErr := 8 }) = some ⟨.faulted, 0, [], []⟩ := by decide

/-! ### Witnesses: command words and steps -/

/-- The ends of a reserved range. -/
theorem witness_OpcodeMapReadsOperands :
    (0x37 : Byte) ∉ ([0x01, 0x10, 0x11, 0x12, 0x20, 0x21, 0x30, 0x31, 0x32, 0x33, 0x34, 0x35, 0x36] : List Byte) ∧
    (0x0F : Byte) ∉ ([0x01, 0x10, 0x11, 0x12, 0x20, 0x21, 0x30, 0x31, 0x32, 0x33, 0x34, 0x35, 0x36] : List Byte) := by
  decide

/-- One word per format with every ignored bit set. -/
theorem witness_IgnoredBitsHaveNoEffect :
    decode 0x10FFFFFFFFFFFFFFFF#72 = .ok .ceInit ∧ decode 0x11FFFFFFFFFFFFFF61#72 = .ok (.ceUpdate 0x61) ∧
    decode 0x01FFFFFFFFFFFFFF09#72 = .ok (.sysRdreg 9) ∧ decode 0x36FFFFFFFFFFFFFFFE#72 = .ok (.spSetmode false) ∧
    decode 0x20FFFFFFFFFFFFFFFF#72 = .ok (.rfStart 0xFFFFFFFFFFFFFFFF) := by decide

/-- Both ends of every reserved range. -/
theorem witness_ReservedOpcodesRefused :
    ∀ op ∈ ([0x00, 0x02, 0x0F, 0x13, 0x1F, 0x22, 0x2F, 0x37, 0x3F, 0x40, 0xFF] : List Byte),
      op.toNat = 0x00 ∨ (0x02 ≤ op.toNat ∧ op.toNat ≤ 0x0F) ∨ (0x13 ≤ op.toNat ∧ op.toNat ≤ 0x1F) ∨
      (0x22 ≤ op.toNat ∧ op.toNat ≤ 0x2F) ∨ (0x37 ≤ op.toNat ∧ op.toNat ≤ 0x3F) ∨ 0x40 ≤ op.toNat := by decide

theorem witness_StepRunsDecodedCommand :
    (small.withFetchWord 72 0x110000000000000061).inbox = .command 0x110000000000000061 :: [] ∧
    decode 0x110000000000000061#72 = .ok (.ceUpdate 0x61) := by decide

theorem witness_QuiescentWithoutCommand : small.inbox = [] := rfl

theorem witness_ResetInputRestoresRegisters :
    ({ holding encAbc with inbox := [.rst, .command 0] } : State).inbox = .rst :: [.command 0] := rfl

/-- A record open, a full buffer and a latched fault; the step taken is `SP.CLEAR`. -/
def busy : State :=
  { holding (List.replicate 64 0) with
    rfPhase := .payload, rfLen := 3, rfRem := 3, spErr := 0xB, inbox := [.command 0x350000000000000000] }

theorem witness_StepKeepsInvariant : busy.Inv ∧ ∃ t, step busy = .next t := ⟨by decide, _, rfl⟩

/-! ### Witnesses: Checksum Engine -/

theorem witness_ChecksumEngineNeverFails :
    unitOf (.ceUpdate 0x61) = .ce ∧ unitOf .ceInit = .ce ∧ unitOf .ceFinal = .ce ∧
    small.ceCrc = busy.ceCrc := by decide

/-- Commands of the other units stand between. -/
theorem witness_CeSumIsMaskedChecksum :
    unitCmds .ce [.spPush 7, .ceInit, .rfStart 3, .ceUpdate 0x61, .sysRdreg 0, .ceFinal] = ceSum [0x61] ∧
    unitCmds .ce [.ceInit, .ceFinal] = ceSum [] := by decide

theorem witness_MaskedChecksumSeesOneByte : (0x61 : Byte) ≠ 0x60 := by decide

/-! ### Witnesses: Record Framer -/

/-- The framer in the middle of a record. -/
def opened : State := { small with rfPhase := .payload, rfLen := 3, rfRem := 3 }

theorem witness_RfStartOpensRecord : small.rfPhase = .idle := rfl

/-- An open record; a command of another unit; the byte that closes the record; reset. -/
theorem witness_RfStartRefusedWhileOpen :
    opened.rfPhase = .payload ∧ unitOf .ceInit ≠ .rf ∧ (∃ t, exec .ceInit opened = .next t) ∧
    (∃ t, exec (.rfData 0x43) { opened with rfRem := 1 } = .next t ∧ t.rfPhase = .idle) ∧
    ({ opened with inbox := [.rst] } : State).inbox = .rst :: [] :=
  ⟨rfl, by decide, ⟨_, rfl⟩, ⟨_, rfl, rfl⟩, rfl⟩

/-- Before the last byte, and before an earlier one. -/
theorem witness_RfDataEmitsByte :
    opened.rfPhase = .payload ∧ opened.rfRem ≠ 0 ∧ opened.rfRem - 1 ≠ 0 ∧
    ({ opened with rfRem := 1 } : State).rfPhase = .payload ∧ ({ opened with rfRem := 1 } : State).rfRem ≠ 0 ∧
    ({ opened with rfRem := 1 } : State).rfRem - 1 = 0 := by
  decide

theorem witness_RfDataRefusedWhileIdle : small.rfPhase = .idle := rfl

/-- Both commands, in both phases, with the invariant. -/
theorem witness_FramerNeverFailsOnData :
    unitOf (.rfStart 3) = .rf ∧ unitOf (.rfData 0x41) = .rf ∧ small.Inv ∧ opened.Inv := by decide

theorem witness_RfEncodeIsEncodeRecord :
    ([0x61] : List Byte).length < 2 ^ 64 ∧ small.rfPhase = .idle ∧
    unitCmds .rf [.rfStart 1, .spPush 7, .ceInit, .rfData 0x61] = rfEncode [0x61] := by decide

/-- A run that ends with no record open, and one that ends in the middle of a record. -/
theorem witness_WireIsRecordsAndOpenRecord :
    small.rfPhase = .idle ∧
    (∃ rs t, Ran [.rfData 0x41, .rfStart 0] small rs t ∧ t.rfPhase = .idle) ∧
    (∃ rs t, Ran [.rfStart 3] small rs t ∧ t.rfPhase = .payload) :=
  ⟨rfl, ⟨_, _, Ran.cons rfl rfl (Ran.cons rfl rfl (Ran.nil _)), rfl⟩,
    ⟨_, _, Ran.cons rfl rfl (Ran.nil _), rfl⟩⟩

/-! ### Witnesses: Stream Parser -/

/-- The parser faulted. -/
def broken : State := { holding encAbc with spErr := 8 }

/-- Room for one more byte, and none buffered. -/
theorem witness_SpPushAppendsByte :
    (holding (List.replicate 63 0)).spErr = 0 ∧ (holding (List.replicate 63 0)).spEoi = false ∧
    (holding (List.replicate 63 0)).spBuf.length < (holding (List.replicate 63 0)).bufCap ∧
    small.spBuf.length < small.bufCap := by decide

/-- One state for each refusal. -/
theorem witness_SpPushRefusals :
    broken.spErr ≠ 0 ∧
    ({ small with spEoi := true } : State).spErr = 0 ∧ ({ small with spEoi := true } : State).spEoi = true ∧
    (holding (List.replicate 64 0)).spErr = 0 ∧ (holding (List.replicate 64 0)).spEoi = false ∧
    (holding (List.replicate 64 0)).spBuf.length = (holding (List.replicate 64 0)).bufCap := by decide

/-- V30: each case of `frame`, at the ends of its range. -/
theorem witness_FrameFindsBoundary :
    frame 48 [] = .short ∧ frame 48 (encAbc.take 7) = .short ∧ frame 48 (encAbc.take 8) = .incomplete 3 ∧
    frame 48 (encAbc.take 18) = .incomplete 3 ∧ frame 48 encAbc = .whole 3 ∧
    frame 48 (encAbc ++ encEmpty) = .whole 3 ∧ frame 48 encEmpty = .whole 0 ∧
    frame 48 (le64 48) = .incomplete 48 ∧ frame 48 (le64 49) = .tooLong 49 ∧
    frame 48 (List.replicate 8 0xFF) = .tooLong 0xFFFFFFFFFFFFFFFF := by decide

theorem witness_BufferReadsStayInside :
    frame 48 encAbc ≠ .short ∧ frame 48 encAbc = .whole 3 ∧ frame 48 encEmpty = .whole 0 := by decide

/-- Permissive with a corrupted record, and strict with a sound one. -/
theorem witness_SpDecode1Delivers :
    (holding badBoth).spErr = 0 ∧ frame 48 (holding badBoth).spBuf = .whole 3 ∧ (holding badBoth).spStrict = false ∧
    (∃ s : State, s = { holding encAbc with spStrict := true } ∧ s.spErr = 0 ∧ s.spStrict = true ∧
      frame s.maxLen.val s.spBuf = .whole 3 ∧
      slice s.spBuf 8 12 = maskedChecksum (slice s.spBuf 0 8) ∧
      slice s.spBuf (12 + 3) (16 + 3) = maskedChecksum (slice s.spBuf 12 (12 + 3))) :=
  ⟨by decide, by decide, by decide, _, rfl, by decide, by decide, by decide, by decide, by decide⟩

/-- Short and incomplete buffers, without and with the end of input, empty and not. -/
theorem witness_SpDecode1LackingBytes :
    small.spErr = 0 ∧ small.spEoi = false ∧ small.spBuf = [] ∧ frame small.maxLen.val small.spBuf = .short ∧
    (holding (encAbc.take 18)).spErr = 0 ∧ (holding (encAbc.take 18)).spBuf ≠ [] ∧
    frame (holding (encAbc.take 18)).maxLen.val (holding (encAbc.take 18)).spBuf = .incomplete 3 ∧
    ({ small with spEoi := true } : State).spEoi = true := by decide

/-- One more than `MAX_LEN`, and the length of all ones with bytes after it. -/
theorem witness_SpDecode1RejectsOversized :
    (holding (le64 49)).spErr = 0 ∧ 8 ≤ (holding (le64 49)).spBuf.length ∧
    (holding (le64 49)).bufCap - 16 < fromLe (slice (holding (le64 49)).spBuf 0 8) ∧
    (holding (List.replicate 8 0xFF ++ [0])).spErr = 0 ∧
    (holding (List.replicate 8 0xFF ++ [0])).spBuf = List.replicate 8 0xFF ++ [0] := by decide

/-- Both checksums wrong, and the payload checksum alone. -/
theorem witness_SpDecode1StrictMismatch :
    ({ holding badBoth with spStrict := true } : State).spErr = 0 ∧
    ({ holding badBoth with spStrict := true } : State).spStrict = true ∧
    frame 48 badBoth = .whole 3 ∧ slice badBoth 8 12 ≠ maskedChecksum (slice badBoth 0 8) ∧
    frame 48 badPayload = .whole 3 ∧ slice badPayload 8 12 = maskedChecksum (slice badPayload 0 8) ∧
    slice badPayload (12 + 3) (16 + 3) ≠ maskedChecksum (slice badPayload 12 (12 + 3)) := by decide

/-- A faulted parser; a first decode that answers OK, and one that does not. -/
theorem witness_SpDecodeallLoopsDecode1 :
    broken.spErr ≠ 0 ∧
    (holding encAbc).spErr = 0 ∧ (answered (exec .spDecode1 (holding encAbc))).map Response.status = some .ok ∧
    small.spErr = 0 ∧ (answered (exec .spDecode1 small)).map Response.status = some .noRecord := by decide

/-- Buffers that end each way: short, incomplete, oversized, and a record strict mode rejects. -/
theorem witness_SpDecodeallDrainsBuffer :
    (holding (encAbc ++ encEmpty.take 7)).spErr = 0 ∧ (holding (encAbc ++ encEmpty.take 10)).spErr = 0 ∧
    (holding (encAbc ++ le64 49)).spErr = 0 ∧
    ({ holding (encAbc ++ badBoth) with spStrict := true } : State).spErr = 0 := by decide

theorem witness_StrictDecodeIsSound :
    ({ holding (encAbc ++ badBoth) with spStrict := true } : State).spErr = 0 ∧
    ({ holding (encAbc ++ badBoth) with spStrict := true } : State).spStrict = true := by decide

/-- One record: `decode_all` comes to the buffer and to the empty sequence, neither with an oversized length. -/
theorem witness_SpDecodeallIsDecodeAll :
    (holding encEmpty).spErr = 0 ∧ (holding encEmpty).spEoi = false ∧ (holding encEmpty).spStrict = false ∧
    ∀ c, Reached (holding encEmpty).spBuf c → ∀ l, frame (holding encEmpty).maxLen.val c ≠ .tooLong l := by
  refine ⟨by decide, by decide, by decide, fun c hc l => ?_⟩
  have two : c = encEmpty ∨ c = [] := by
    induction hc with
    | start => exact .inl rfl
    | next _ hd ih =>
      rcases ih with rfl | rfl
      · rw [show decodeOne encEmpty = some ([], 16) by decide] at hd
        cases hd
        exact .inr rfl
      · cases hd
  rcases two with rfl | rfl
  · rw [show frame (holding encEmpty).maxLen.val encEmpty = .whole 0 by decide]
    exact fun h => by cases h
  · exact fun h => by cases h

theorem witness_FullBufferNeverWaits :
    (holding (List.replicate 64 0xFF)).spErr = 0 ∧
    (holding (List.replicate 64 0xFF)).spBuf.length = (holding (List.replicate 64 0xFF)).bufCap := by decide

theorem witness_SpEndAssertsEndOfInput :
    broken.spErr ≠ 0 ∧ small.spErr = 0 ∧ Instr.spDecode1 ≠ .spClear ∧
    (∃ t, exec .spDecode1 { small with spEoi := true } = .next t) ∧
    ({ small with spEoi := true, inbox := [.rst] } : State).inbox = .rst :: [] :=
  ⟨by decide, by decide, by decide, ⟨_, rfl⟩, rfl⟩

theorem witness_SpClearEmptiesParser :
    unitOf (.spPush 0) = .sp ∧ Instr.spPush 0 ≠ .spClear ∧ broken.spErr ≠ 0 ∧ ∃ t, exec (.spPush 0) broken = .next t :=
  ⟨by decide, by decide, by decide, _, rfl⟩

theorem witness_SpSetmodeSelectsMode : broken.spErr ≠ 0 ∧ small.spErr = 0 := by decide

theorem witness_FaultedParserRefuses :
    broken.spErr ≠ 0 ∧ unitOf .spEnd = .sp ∧ Instr.spEnd ≠ .spClear ∧
    unitOf .ceInit ≠ .sp ∧ Instr.ceInit ≠ .sysRdreg 8 ∧ Instr.sysRdreg 7 ≠ .sysRdreg 8 := by decide

/-- A step on a faulted parser: a command it refuses, `SP.CLEAR` (`busy`), and reset. -/
theorem witness_FaultStaysUntilClear :
    broken.spErr ≠ 0 ∧ (∃ t, step (broken.withFetchWord 72 0x340000000000000000) = .next t) ∧
    busy.spErr ≠ 0 ∧ (∃ t, step busy = .next t) ∧
    ∃ t, step { broken with inbox := [.rst] } = .next t :=
  ⟨by decide, ⟨_, rfl⟩, by decide, ⟨_, rfl⟩, _, rfl⟩

/-- The largest payload, and the empty one. -/
theorem witness_RecordRoundTrip :
    (List.replicate 48 (0 : Byte)).length ≤ small.bufCap - 16 ∧ ([] : List Byte).length ≤ small.bufCap - 16 ∧
    small.spErr = 0 ∧ small.spEoi = false ∧ small.spBuf = [] := by decide

/-- A stream of 144 bytes for a buffer of 64. -/
theorem witness_StreamRoundTrip :
    (∀ p ∈ [List.replicate 48 (0 : Byte), [], List.replicate 48 0xFF], p.length ≤ small.bufCap - 16) ∧
    small.spErr = 0 ∧ small.spEoi = false ∧ small.spBuf = [] := by decide

/-- A run without `SP.CLEAR`, and one with it between two pushes. -/
theorem witness_ParserConservesStream :
    (∃ rs t, Ran [.spPush 3, .spEnd, .spPush 4] small rs t) ∧
    ∃ rs t, Ran [.spPush 1, .spClear, .spPush 2] small rs t :=
  ⟨⟨_, _, Ran.cons rfl rfl (Ran.cons rfl rfl (Ran.cons rfl rfl (Ran.nil _)))⟩,
    _, _, Ran.cons rfl rfl (Ran.cons rfl rfl (Ran.cons rfl rfl (Ran.nil _)))⟩

/-! ### Witnesses: the whole block -/

/-- Refused by the framer, by the full buffer, by the fault and by an unassigned register number. -/
theorem witness_RefusedCommandsChangeNothing :
    (∃ t, exec (.rfData 1) small = .next t ∧ t.outbox = small.outbox ++ [Response.bare .proto]) ∧
    (∃ t, exec .spEnd broken = .next t ∧ t.outbox = broken.outbox ++ [Response.bare .faulted]) ∧
    (∃ t, exec (.sysRdreg 10) small = .next t ∧ t.outbox = small.outbox ++ [Response.bare .badcmd]) ∧
    Status.proto.kind = .refused ∧ Status.faulted.kind = .refused ∧ Status.badcmd.kind = .refused :=
  ⟨⟨_, rfl, rfl⟩, ⟨_, rfl, rfl⟩, ⟨_, rfl, rfl⟩, rfl, rfl, rfl⟩

theorem witness_UnitsOwnTheirRegisters :
    (∃ t, exec .ceInit small = .next t) ∧ unitOf .ceInit ≠ .rf ∧ unitOf .ceInit ≠ .sp ∧
    (∃ t, exec .spEnd small = .next t) ∧ unitOf .spEnd ≠ .ce :=
  ⟨⟨_, rfl⟩, by decide, by decide, ⟨_, rfl⟩, by decide⟩

/-- One command for each clause, the accepted and the refused push both. -/
theorem witness_BufferFrame :
    (∃ t, exec .spEnd (holding encAbc) = .next t) ∧
    (∃ t, exec (.spPush 1) (holding encAbc) = .next t ∧ t.spBuf.length ≠ (holding encAbc).spBuf.length) ∧
    (∃ t, exec (.spPush 1) broken = .next t ∧ t.spBuf.length = broken.spBuf.length) ∧
    (∃ t, exec .spDecode1 (holding encAbc) = .next t) ∧ (∃ t, exec .spDecodeall (holding encAbc) = .next t) ∧
    ∃ t, exec .spClear (holding encAbc) = .next t :=
  ⟨⟨_, rfl⟩, ⟨_, rfl, by decide⟩, ⟨_, rfl, by decide⟩, ⟨_, rfl⟩, ⟨_, rfl⟩, _, rfl⟩

theorem witness_UnitsCommute :
    (∀ i ∈ [Instr.ceInit, .rfStart 3, .spPush 7], unitOf i ≠ .sys) ∧
    (∀ i ∈ [Instr.spPush 7, .ceInit, .rfStart 3], unitOf i ≠ .sys) ∧
    ∀ u : HwUnit, unitCmds u [.ceInit, .rfStart 3, .spPush 7] = unitCmds u [.spPush 7, .ceInit, .rfStart 3] :=
  ⟨by decide, by decide, fun u => by cases u <;> decide⟩

/-- A register of another unit, the capacity, and an unassigned number. -/
theorem witness_RdregCommutesWithOtherUnits :
    regOwner 4 ≠ some (unitOf .ceInit) ∧ regOwner 0 ≠ some (unitOf (.rfData 1)) ∧
    regOwner 9 ≠ some (unitOf .spEnd) ∧ regOwner 10 ≠ some (unitOf .spEnd) := by decide

end Sys2Proof.Tests
end

section
/-! The block right after reset (spec/10_state.md). -/

namespace Sys2Proof.Machine

/-- The listing of R105 is what the construction of R106 gives. The listing is literal data, so the 256 indices are
compared one by one. -/
theorem tableEntry_eq_tableBuilt : ∀ i : Byte, tableEntry i = tableBuilt i := by decide

/-- Settles O9: each register holds its reset value by the definition of `State.reset`; the table is
`tableEntry_eq_tableBuilt`. -/
theorem registersAfterReset : Obligations.RegistersAfterReset :=
  ⟨rfl, rfl, rfl, rfl, rfl, rfl, rfl, rfl, rfl, rfl, tableEntry_eq_tableBuilt⟩

end Sys2Proof.Machine
end

section
/-! Command words: the opcode map, ignored argument bits and reserved opcodes (spec/30_encoding.md R76, R77, R81, R82).
Both directions of the decoder come from `decode_ok_iff`: a word is command `i` exactly when clearing the bits the
format of `i` ignores gives the word of `i`. -/

namespace Sys2Proof

/-- The opcodes of the rows of R76. -/
def assignedOpcodes : List Byte :=
  [0x01, 0x10, 0x11, 0x12, 0x20, 0x21, 0x30, 0x31, 0x32, 0x33, 0x34, 0x35, 0x36]

theorem opcodeOf_mem_assignedOpcodes (i : Instr) : opcodeOf i ∈ assignedOpcodes := by
  cases i <;> simp [opcodeOf, assignedOpcodes]

/-- What the opcode map can answer: a command with this opcode, or that the opcode is reserved (R76, R81). -/
theorem decodeFields_cases (op : Byte) (arg : U64) :
    (∃ i, decodeFields op arg = .ok i ∧ opcodeOf i = op) ∨
    decodeFields op arg = .error (.reservedOpcode op) := by
  unfold decodeFields
  split
  case h_14 => exact .inr rfl
  all_goals
    rename_i hop
    exact .inl ⟨_, rfl, BitVec.eq_of_toNat_eq hop.symm⟩

theorem opcodeOf_of_decodeFields_ok {op : Byte} {arg : U64} {i : Instr} (h : decodeFields op arg = .ok i) :
    opcodeOf i = op := by
  obtain ⟨j, hj, hop⟩ | he := decodeFields_cases op arg
  · rw [hj] at h
    cases h
    exact hop
  · simp [he] at h

theorem decodeFields_of_not_mem {op : Byte} (h : op ∉ assignedOpcodes) (arg : U64) :
    decodeFields op arg = .error (.reservedOpcode op) := by
  obtain ⟨i, -, rfl⟩ | he := decodeFields_cases op arg
  · exact absurd (opcodeOf_mem_assignedOpcodes i) h
  · exact he

/-- The byte read from `arg[7:0]` is `b` exactly when `arg` without its ignored bits is `b` (R77, formats B and R). -/
theorem byteOperand_eq_iff (arg : U64) (b : Byte) : byteOperand arg = b ↔ b.setWidth 64 = arg &&& 0xFF := by
  have hmask : arg.toNat &&& 255 = arg.toNat % 2 ^ 8 := Nat.and_two_pow_sub_one_eq_mod _ 8
  have hb := b.isLt
  simp only [← BitVec.toNat_inj, byteOperand, BitVec.extractLsb'_toNat, BitVec.toNat_setWidth, BitVec.toNat_and]
  simp [hmask]
  omega

/-- The bit read from `arg[0]` is `strict` exactly when `arg` without its ignored bits is `strict` (R77, format M). -/
theorem modeOperand_eq_iff (arg : U64) (strict : Bool) :
    modeOperand arg = strict ↔ (if strict then 1 else 0 : U64) = arg &&& 1 := by
  have hmask : arg &&& 1 = (BitVec.ofBool (arg.getLsbD 0)).setWidth 64 :=
    BitVec.and_one_eq_setWidth_ofBool_getLsbD
  rw [modeOperand, hmask]
  cases arg.getLsbD 0 <;> cases strict <;> decide

/-- An argument gives the operands of `i` under the opcode of `i` exactly when it is the argument of `i` but for the
bits the format of `i` ignores (R77). -/
theorem decodeFields_opcodeOf_iff (i : Instr) (arg : U64) :
    decodeFields (opcodeOf i) arg = .ok i ↔ argOf i = arg &&& usedArgBits i := by
  cases i with
  | sysRdreg n => simp [decodeFields, opcodeOf, argOf, usedArgBits, byteOperand_eq_iff]
  | ceUpdate b => simp [decodeFields, opcodeOf, argOf, usedArgBits, byteOperand_eq_iff]
  | rfData b => simp [decodeFields, opcodeOf, argOf, usedArgBits, byteOperand_eq_iff]
  | spPush b => simp [decodeFields, opcodeOf, argOf, usedArgBits, byteOperand_eq_iff]
  | spSetmode strict => simp [decodeFields, opcodeOf, argOf, usedArgBits, modeOperand_eq_iff]
  | rfStart len =>
    have hall : arg &&& 0xFFFFFFFFFFFFFFFF#64 = arg := BitVec.and_allOnes
    simp [decodeFields, opcodeOf, argOf, usedArgBits, hall, eq_comm]
  | _ => simp [decodeFields, opcodeOf, argOf, usedArgBits]

theorem decodeFields_ok_iff (op : Byte) (arg : U64) (i : Instr) :
    decodeFields op arg = .ok i ↔ opcodeOf i = op ∧ argOf i = arg &&& usedArgBits i := by
  constructor
  · intro h
    obtain rfl := opcodeOf_of_decodeFields_ok h
    exact ⟨rfl, (decodeFields_opcodeOf_iff i arg).1 h⟩
  · rintro ⟨rfl, harg⟩
    exact (decodeFields_opcodeOf_iff i arg).2 harg

/-- A word is command `i` exactly when clearing the bits the format of `i` ignores gives the word of `i`
(R75 to R77, R82). -/
theorem decode_ok_iff (w : CmdWord) (i : Instr) :
    decode w = .ok i ↔ encode i = opcodeField w ++ (argField w &&& usedArgBits i) := by
  rw [decode, decodeFields_ok_iff]
  constructor
  · rintro ⟨hop, harg⟩
    rw [encode, hop, harg]
  · intro h
    constructor
    · simpa using congrArg opcodeField h
    · simpa using congrArg argField h

/-- Clearing the bits a command ignores leaves the same command (R82). -/
theorem decode_clearIgnored {w : CmdWord} {i : Instr} (h : decode w = .ok i) :
    decode (opcodeField w ++ (argField w &&& usedArgBits i)) = .ok i := by
  rw [decode_ok_iff] at h ⊢
  rw [opcodeField_append, argField_append, BitVec.and_assoc, BitVec.and_self]
  exact h

end Sys2Proof

namespace Sys2Proof.Machine

/-- A step reads an offered word through the decoder only. -/
theorem step_command_congr {w w' : CmdWord} (h : decode w = decode w') (s : State) (rest : List PortEvent) :
    step { s with inbox := .command w :: rest } = step { s with inbox := .command w' :: rest } := by
  simp only [step, h]
  rfl

/-- A word of a reserved opcode is taken and answered BADCMD; no register changes (R81, R193). -/
theorem step_command_reserved {w : CmdWord} {op : Byte} (h : decode w = .error (.reservedOpcode op)) (s : State)
    (rest : List PortEvent) :
    step { s with inbox := .command w :: rest } =
      .next { s with inbox := rest, outbox := s.outbox ++ [Response.bare .badcmd] } := by
  simp only [step, h]
  rfl

/-- Settles O4: `decode_ok_iff` gives the cleared word, which decodes to the same command, and a step reads a word
through the decoder only. -/
theorem ignoredBitsHaveNoEffect : Obligations.IgnoredBitsHaveNoEffect := by
  intro w i h
  exact ⟨(decode_ok_iff w i).1 h, step_command_congr (h.trans (decode_clearIgnored h).symm)⟩

/-- The six ranges of R81 hold no assigned opcode. -/
theorem assignedOpcodes_not_in_reserved_ranges : ∀ op ∈ assignedOpcodes,
    ¬ (op.toNat = 0x00 ∨ (0x02 ≤ op.toNat ∧ op.toNat ≤ 0x0F) ∨ (0x13 ≤ op.toNat ∧ op.toNat ≤ 0x1F) ∨
      (0x22 ≤ op.toNat ∧ op.toNat ≤ 0x2F) ∨ (0x37 ≤ op.toNat ∧ op.toNat ≤ 0x3F) ∨ 0x40 ≤ op.toNat) := by
  decide

/-- Settles O5: an opcode of the six ranges is not assigned, so its word is refused by `step_command_reserved`. -/
theorem reservedOpcodesRefused : Obligations.ReservedOpcodesRefused := by
  intro op arg s rest hrange
  have hop : op ∉ assignedOpcodes := fun hmem => assignedOpcodes_not_in_reserved_ranges op hmem hrange
  exact step_command_reserved ((decode_append op arg).trans (decodeFields_of_not_mem hop arg)) s rest

/-- Settles O1: each row of the map read off `decodeFields`, the reserved opcodes by `decodeFields_of_not_mem`. -/
theorem opcodeMapReadsOperands : Obligations.OpcodeMapReadsOperands := by
  intro arg
  simp only [decode_append]
  exact ⟨rfl, rfl, rfl, rfl, rfl, rfl, rfl, rfl, rfl, rfl, rfl, rfl, rfl,
    fun _ hop => decodeFields_of_not_mem hop arg⟩

end Sys2Proof.Machine
end

section
/-! The Checksum Engine (spec/40_checksum_engine.md): each CE command as an equation on the state (R110 to R112), from
which `exec_ce_eq` says once what any CE command can do (R114); and the running value over a sequence (R102). -/

namespace Sys2Proof.Machine

/-! ### The running value over a sequence -/

@[simp] theorem crcRun_nil (c : U32) : crcRun c [] = c := rfl

@[simp] theorem crcRun_cons (c : U32) (b : Byte) (s : List Byte) : crcRun c (b :: s) = crcRun (crcStep c b) s := rfl

theorem crcRun_append (c : U32) (s u : List Byte) : crcRun c (s ++ u) = crcRun (crcRun c s) u := by
  induction s generalizing c with
  | nil => rfl
  | cons b s ih => exact ih (crcStep c b)

/-! ### The step and the mask, in the operations the statements use -/

/-- The table index of R101: XOR with the byte before or after taking the low byte. -/
theorem lowByte_xor_setWidth (c : U32) (b : Byte) : (c ^^^ b.setWidth 32).extractLsb' 0 8 = c.setWidth 8 ^^^ b := by
  ext k hk
  have hk32 : k < 32 := by omega
  simp [hk, hk32]

/-- The final XOR of R103 is the complement. -/
theorem xor_ones_eq_not (c : U32) : c ^^^ 0xFFFFFFFF = ~~~c := BitVec.xor_allOnes

/-- The two shifts of R104 are the rotation. -/
theorem mask32_eq_rotateRight (c : U32) : mask32 c = c.rotateRight 15 + 0xA282EAD8#32 := rfl

/-! ### What each command does to the state -/

/-- R110. -/
theorem exec_ceInit (s : State) :
    exec .ceInit s = .next { s with ceCrc := crcInit, outbox := s.outbox ++ [Response.bare .ok] } := rfl

/-- R111. -/
theorem exec_ceUpdate (b : Byte) (s : State) :
    exec (.ceUpdate b) s =
      .next { s with ceCrc := crcStep s.ceCrc b, outbox := s.outbox ++ [Response.bare .ok] } := rfl

/-- The response of `CE.FINAL` when the running value is `c` (R112). -/
def ceFinalResponse (c : U32) : Response := ⟨.ok, (mask32 (~~~c)).setWidth 64, le32 (mask32 (~~~c)), []⟩

/-- R112. -/
theorem exec_ceFinal (s : State) :
    exec .ceFinal s = .next { s with outbox := s.outbox ++ [ceFinalResponse s.ceCrc] } := by
  rw [ceFinalResponse, ← xor_ones_eq_not]
  rfl

/-- What a CE command can do (R114): `CE_CRC` alone fixes the new `CE_CRC` and the response, which is OK, and nothing
else of the state is written. -/
theorem exec_ce_eq {i : Instr} (h : unitOf i = .ce) (c : U32) :
    ∃ c' r, r.status = .ok ∧
      ∀ s : State, s.ceCrc = c → exec i s = .next { s with ceCrc := c', outbox := s.outbox ++ [r] } := by
  cases i with
  | ceInit => exact ⟨crcInit, Response.bare .ok, rfl, fun s _ => exec_ceInit s⟩
  | ceUpdate b => exact ⟨crcStep c b, Response.bare .ok, rfl, fun s hc => hc ▸ exec_ceUpdate b s⟩
  | ceFinal => exact ⟨c, ceFinalResponse c, rfl, fun s hc => hc ▸ exec_ceFinal s⟩
  | _ => simp [unitOf, opcodeOf] at h

/-! ### The obligations -/

/-- Settles O22: `exec_ce_eq` gives one new `CE_CRC` and one OK response for both states. -/
theorem checksumEngineNeverFails : Obligations.ChecksumEngineNeverFails := by
  intro i s s' hi hcrc
  obtain ⟨c, r, hok, hexec⟩ := exec_ce_eq hi s'.ceCrc
  exact ⟨r, _, _, hexec s hcrc, hexec s' rfl, rfl, rfl, hok, rfl, rfl, rfl⟩

/-- Settles O14: the row of the opcode map, and `exec_ceInit`. -/
theorem ceInitLoadsInitialValue : Obligations.CeInitLoadsInitialValue :=
  ⟨fun arg => decode_append 0x10 arg, exec_ceInit⟩

/-- Settles O15: the row of the opcode map, and `exec_ceUpdate` with the step of R101 written out. -/
theorem ceUpdateStepsRunningValue : Obligations.CeUpdateStepsRunningValue := by
  refine ⟨fun arg => decode_append 0x11 arg, fun b s => ?_⟩
  rw [lowByte_xor_setWidth]
  exact exec_ceUpdate b s

/-- Settles O16: the row of the opcode map, and `exec_ceFinal` with the mask as a rotation. -/
theorem ceFinalGivesMaskedChecksum : Obligations.CeFinalGivesMaskedChecksum := by
  refine ⟨fun arg => decode_append 0x12 arg, fun s => ?_⟩
  rw [← mask32_eq_rotateRight]
  exact exec_ceFinal s

/-- Settles O19: the two equations of R102, and `crcRun_append`. -/
theorem chunkingKeepsRunningValue : Obligations.ChunkingKeepsRunningValue :=
  ⟨crcRun_nil, crcRun_cons, crcRun_append⟩

end Sys2Proof.Machine
end

section
/-! The Record Framer (spec/41_record_framer.md): one equation for each branch of the two RF commands (R131 to R134),
from which `exec_rf_cases` says once how an RF command can answer (R137); and that no other command touches the framer
(R20). -/

namespace Sys2Proof.Machine

/-! ### What each command does to the state -/

/-- The trailer in the operations the statements use: the final XOR is the complement. -/
theorem recordTrailer_eq (c : U32) : recordTrailer c = le32 (mask32 (~~~c)) := by
  rw [recordTrailer, xor_ones_eq_not]

/-- The trailer of the empty record (R109, R131). -/
theorem recordTrailer_crcInit : recordTrailer crcInit = [0xD8, 0xEA, 0x82, 0xA2] := by decide

section
variable {s : State}

/-- R131, the empty record. -/
theorem exec_rfStart_zero (h : s.rfPhase = .idle) :
    exec (.rfStart 0) s = .next { s with
      rfPhase := .idle, rfLen := 0, rfRem := 0, rfCrc := crcInit
      outbox := s.outbox ++ [⟨.ok, 0, recordHeader 0 ++ recordTrailer crcInit, []⟩] } := by
  simp only [exec, execRfStart, h]
  rfl

/-- R131, a record with a payload. -/
theorem exec_rfStart_ne_zero (h : s.rfPhase = .idle) {len : U64} (hlen : len ≠ 0) :
    exec (.rfStart len) s = .next { s with
      rfPhase := .payload, rfLen := len, rfRem := len, rfCrc := crcInit
      outbox := s.outbox ++ [⟨.ok, len, recordHeader len, []⟩] } := by
  simp only [exec, execRfStart, h, if_neg hlen]
  rfl

/-- R132. -/
theorem exec_rfStart_payload (h : s.rfPhase = .payload) (len : U64) :
    exec (.rfStart len) s = answer (refuse .proto s) := by
  simp only [exec, execRfStart, h]

/-- R134. -/
theorem exec_rfData_idle (h : s.rfPhase = .idle) (b : Byte) :
    exec (.rfData b) s = answer (refuse .proto s) := by
  simp only [exec, execRfData, h]

/-- R26: `RF_REM` never wraps. -/
theorem exec_rfData_none_owed (h : s.rfPhase = .payload) (hrem : s.rfRem = 0) (b : Byte) :
    exec (.rfData b) s = answer (refuse .proto s) := by
  simp only [exec, execRfData, h, if_pos hrem]

/-- R133, the last byte. -/
theorem exec_rfData_last (h : s.rfPhase = .payload) (hrem : s.rfRem ≠ 0) (hleft : s.rfRem - 1 = 0) (b : Byte) :
    exec (.rfData b) s = .next { s with
      rfPhase := .idle, rfRem := 0, rfCrc := crcStep s.rfCrc b
      outbox := s.outbox ++ [⟨.ok, 0, [b] ++ recordTrailer (crcStep s.rfCrc b), []⟩] } := by
  simp only [exec, execRfData, h, if_neg hrem, hleft, if_true]
  rfl

/-- R133, a byte that is not the last. -/
theorem exec_rfData_more (h : s.rfPhase = .payload) (hrem : s.rfRem ≠ 0) (hleft : s.rfRem - 1 ≠ 0) (b : Byte) :
    exec (.rfData b) s = .next { s with
      rfRem := s.rfRem - 1, rfCrc := crcStep s.rfCrc b
      outbox := s.outbox ++ [⟨.ok, s.rfRem - 1, [b], []⟩] } := by
  simp only [exec, execRfData, h, if_neg hrem, if_neg hleft]
  rfl

end

/-- `RF.DATA` ends an open record with its last byte owed only (R132, R133). -/
theorem rfRem_eq_one_of_rfData_closes {b : Byte} {s t : State} (h : s.rfPhase = .payload)
    (hexec : exec (.rfData b) s = .next t) (ht : t.rfPhase = .idle) : s.rfRem = 1 := by
  by_contra hone
  have hleft : s.rfRem - 1 ≠ 0 := fun hz => hone (BitVec.sub_eq_iff_eq_add.1 hz)
  have hopen : t.rfPhase = .payload := by
    by_cases hrem : s.rfRem = 0
    · rw [exec_rfData_none_owed h hrem, answer_eq] at hexec
      exact Host.Outcome.next.inj hexec ▸ h
    · rw [exec_rfData_more h hrem hleft] at hexec
      exact Host.Outcome.next.inj hexec ▸ h
  simp [hopen] at ht

/-! ### How an RF command can answer -/

/-- The command `i` is one the framer refuses in state `s` (R132, R134, R26). -/
def RfRefuses (i : Instr) (s : State) : Prop :=
  (∃ len, i = .rfStart len ∧ s.rfPhase = .payload) ∨
  (∃ b, i = .rfData b ∧ s.rfPhase = .idle) ∨
  (∃ b, i = .rfData b ∧ s.rfPhase = .payload ∧ s.rfRem = 0)

/-- An RF command answers OK, or it is refused with PROTO (R137). -/
theorem exec_rf_cases {i : Instr} (h : unitOf i = .rf) (s : State) :
    (∃ r t, exec i s = .next t ∧ t.outbox = s.outbox ++ [r] ∧ r.status = .ok) ∨
    (exec i s = answer (refuse .proto s) ∧ RfRefuses i s) := by
  cases i with
  | rfStart len =>
    cases hp : s.rfPhase with
    | payload => exact .inr ⟨exec_rfStart_payload hp len, .inl ⟨len, rfl, hp⟩⟩
    | idle =>
      by_cases hlen : len = 0
      · exact .inl ⟨_, _, hlen ▸ exec_rfStart_zero hp, rfl, rfl⟩
      · exact .inl ⟨_, _, exec_rfStart_ne_zero hp hlen, rfl, rfl⟩
  | rfData b =>
    cases hp : s.rfPhase with
    | idle => exact .inr ⟨exec_rfData_idle hp b, .inr (.inl ⟨b, rfl, hp⟩)⟩
    | payload =>
      by_cases hrem : s.rfRem = 0
      · exact .inr ⟨exec_rfData_none_owed hp hrem b, .inr (.inr ⟨b, rfl, hp, hrem⟩)⟩
      · by_cases hleft : s.rfRem - 1 = 0
        · exact .inl ⟨_, _, exec_rfData_last hp hrem hleft b, rfl, rfl⟩
        · exact .inl ⟨_, _, exec_rfData_more hp hrem hleft b, rfl, rfl⟩
  | _ => simp [unitOf, opcodeOf] at h

/-- In a state with the invariant the framer refuses a command issued in the wrong phase only: PAYLOAD with no byte owed
does not occur (R40). -/
theorem RfRefuses.wrong_phase {i : Instr} {s : State} (h : RfRefuses i s) (hinv : s.Inv) :
    ((∃ len, i = .rfStart len) ∧ s.rfPhase = .payload) ∨ ((∃ b, i = .rfData b) ∧ s.rfPhase = .idle) := by
  obtain ⟨len, hi, hp⟩ | ⟨b, hi, hp⟩ | ⟨b, hi, hp, hrem⟩ := h
  · exact .inl ⟨⟨len, hi⟩, hp⟩
  · exact .inr ⟨⟨b, hi⟩, hp⟩
  · obtain ⟨howed, -⟩ := hinv
    exact absurd hrem (howed.1 hp)

/-! ### What does not touch the framer, and reset -/

@[simp] theorem rfRegs_emit (s : State) (r : Response) : (emit s r).rfRegs = s.rfRegs := rfl

@[simp] theorem rfRegs_withFramerOf (s o : State) : (withFramerOf s o).rfRegs = s.rfRegs := rfl

/-- A command of another unit leaves the framer's registers as they are (R20). -/
theorem exec_rfRegs_of_other_unit {i : Instr} {s t : State} (h : unitOf i ≠ .rf) (hexec : exec i s = .next t) :
    t.rfRegs = s.rfRegs := by
  obtain ⟨p, hp, hout, -⟩ := exec_answers i s
  have hframe : withFramerOf s p.1 = p.1 := exec_other_unit h hp hout
  rw [hp, answer_eq] at hexec
  rw [← Host.Outcome.next.inj hexec, rfRegs_emit, ← hframe, rfRegs_withFramerOf]

/-- A step that takes a reset request (R230). -/
theorem step_rst {s : State} {rest : List PortEvent} (h : s.inbox = .rst :: rest) :
    step s = .next (applyReset (takeEvent rest s)) := by
  simp only [step, h]

/-! ### The obligations -/

/-- Settles O26: the refusal, the frame of the other units' commands, `rfRem_eq_one_of_rfData_closes`, and reset. -/
theorem rfStartRefusedWhileOpen : Obligations.RfStartRefusedWhileOpen :=
  ⟨fun len _ h => exec_rfStart_payload h len,
    fun _ _ _ hi hexec => exec_rfRegs_of_other_unit hi hexec,
    fun _ _ _ h hexec ht => rfRem_eq_one_of_rfData_closes h hexec ht,
    fun _ _ _ hin => ⟨_, step_rst hin, applyReset_rfPhase _⟩⟩

/-- Settles O29: the two answers of `exec_rf_cases`; the invariant leaves the wrong phase as the only cause of PROTO. -/
theorem framerNeverFailsOnData : Obligations.FramerNeverFailsOnData := by
  intro i s hi
  obtain ⟨r, t, hexec, hout, hok⟩ | ⟨hexec, hwhy⟩ := exec_rf_cases hi s
  · exact ⟨r, t, hexec, hout, by simp [hok, Status.kind], .inl hok⟩
  · exact ⟨Response.bare .proto, _, hexec, rfl, by decide, .inr ⟨rfl, hwhy.wrong_phase⟩⟩

/-- Settles O25: the row of the opcode map, and the two equations of an accepted `RF.START`. -/
theorem rfStartOpensRecord : Obligations.RfStartOpensRecord := by
  refine ⟨fun arg => decode_append 0x20 arg, fun len s h => ?_⟩
  by_cases hlen : len = 0
  · subst hlen
    rw [if_pos rfl, exec_rfStart_zero h, recordTrailer_crcInit]
    rfl
  · rw [if_neg hlen, exec_rfStart_ne_zero h hlen]
    rfl

/-- Settles O27: the row of the opcode map, and the two equations of an accepted `RF.DATA`. -/
theorem rfDataEmitsByte : Obligations.RfDataEmitsByte := by
  refine ⟨fun arg => decode_append 0x21 arg, fun b s h hrem => ?_⟩
  by_cases hleft : s.rfRem - 1 = 0
  · rw [if_pos hleft, exec_rfData_last h hrem hleft, recordTrailer_eq]
  · rw [if_neg hleft, exec_rfData_more h hrem hleft]

/-- Settles O28: the refusal is the IDLE branch of `RF.DATA`. -/
theorem rfDataRefusedWhileIdle : Obligations.RfDataRefusedWhileIdle :=
  fun b _ h => exec_rfData_idle h b

end Sys2Proof.Machine
end

section
/-! The Stream Parser's commands (spec/42_stream_parser.md): one equation for each branch of the seven SP commands (R152
to R163); `SP.DECODEALL` as a recursion on `SP.DECODE1` (R159), from which what any run of it does follows by
`decodeAll_induction`; and what the fault register and the end-of-input flag mean for every command (R161, R164). -/

namespace Sys2Proof.Machine

/-! ### The FAULTED test -/

@[simp] theorem unitOf_spPush (b : Byte) : unitOf (.spPush b) = .sp := by simp [unitOf, opcodeOf]

@[simp] theorem unitOf_spSetmode (strict : Bool) : unitOf (.spSetmode strict) = .sp := by simp [unitOf, opcodeOf]

/-- Every SP command but `SP.CLEAR` begins with the FAULTED test (R164). -/
theorem exec_sp_unlessFaulted {i : Instr} (hi : unitOf i = .sp) (hc : i ≠ .spClear) (s : State) :
    ∃ body, exec i s = answer (unlessFaulted s body) := by
  cases i with
  | spClear => exact absurd rfl hc
  | spPush b => exact ⟨_, rfl⟩
  | spDecode1 => exact ⟨_, rfl⟩
  | spDecodeall => exact ⟨_, rfl⟩
  | spVerify => exact ⟨_, rfl⟩
  | spEnd => exact ⟨_, rfl⟩
  | spSetmode b => exact ⟨_, rfl⟩
  | _ => simp [unitOf, opcodeOf] at hi

theorem exec_sp_faulted {i : Instr} {s : State} (hi : unitOf i = .sp) (hc : i ≠ .spClear) (h : s.spErr ≠ 0) :
    exec i s = answer (refuse .faulted s) := by
  obtain ⟨body, hexec⟩ := exec_sp_unlessFaulted hi hc s
  rw [hexec, unlessFaulted_faulted h]

/-! ### Bytes in, and control -/

section
variable {s : State}

/-- R152. -/
theorem exec_spPush_accepted (h : s.spErr = 0) (heoi : s.spEoi = false) (hlen : s.spBuf.length < s.bufCap) (b : Byte) :
    exec (.spPush b) s = .next { s with
      spBuf := s.spBuf ++ [b]
      outbox := s.outbox ++ [⟨.ok, countU64 (s.spBuf ++ [b]), [], []⟩] } := by
  rw [exec, execSpPush, unlessFaulted_ready h, if_neg (Bool.eq_false_iff.1 heoi), if_pos hlen]
  rfl

/-- R153, after the end of input. -/
theorem exec_spPush_after_end (h : s.spErr = 0) (heoi : s.spEoi = true) (b : Byte) :
    exec (.spPush b) s = answer (refuse .proto s) := by
  rw [exec, execSpPush, unlessFaulted_ready h, if_pos heoi]

/-- R153, the full buffer. -/
theorem exec_spPush_full (h : s.spErr = 0) (heoi : s.spEoi = false) (hlen : s.bufCap ≤ s.spBuf.length) (b : Byte) :
    exec (.spPush b) s = answer (refuse .full s) := by
  rw [exec, execSpPush, unlessFaulted_ready h, if_neg (Bool.eq_false_iff.1 heoi), if_neg hlen.not_gt]

/-- R161. -/
theorem exec_spEnd_ready (h : s.spErr = 0) : exec .spEnd s = answer (done { s with spEoi := true }) :=
  congrArg answer (unlessFaulted_ready h _)

/-- R162. -/
theorem exec_spSetmode_ready (h : s.spErr = 0) (strict : Bool) :
    exec (.spSetmode strict) s = answer (done { s with spStrict := strict }) :=
  congrArg answer (unlessFaulted_ready h _)

end

/-! ### What `verify` tells (R158) -/

section
variable {buf : List Byte} {l : Nat}

theorem verify_badLen (h : slice buf 8 12 ≠ maskedChecksum (slice buf 0 8)) : verify buf l = .badLen := if_pos h

theorem verify_badPay (hlen : slice buf 8 12 = maskedChecksum (slice buf 0 8))
    (hpay : slice buf (12 + l) (16 + l) ≠ maskedChecksum (slice buf 12 (12 + l))) : verify buf l = .badPay :=
  (if_neg (not_not.2 hlen)).trans (if_pos hpay)

theorem verify_good (hlen : slice buf 8 12 = maskedChecksum (slice buf 0 8))
    (hpay : slice buf (12 + l) (16 + l) = maskedChecksum (slice buf 12 (12 + l))) : verify buf l = .good :=
  (if_neg (not_not.2 hlen)).trans (if_neg (not_not.2 hpay))

end

/-! ### One decode -/

/-- The frame lacks bytes: the length is not known, or not all of an admitted record is there (R157). -/
def LacksBytes (s : State) : Prop :=
  frame s.maxLen.val s.spBuf = .short ∨ ∃ l, frame s.maxLen.val s.spBuf = .incomplete l

section
variable {s : State} {l : Nat}

/-- R155. -/
theorem decode1_tooLong (h : s.spErr = 0) (hf : frame s.maxLen.val s.spBuf = .tooLong l) :
    decode1 s = raiseFault .sizeovf s := by
  simp only [decode1, unlessFaulted_ready h, hf]

theorem decode1_lacking (h : s.spErr = 0) (hf : LacksBytes s) : decode1 s = lacking s := by
  obtain hf | ⟨l, hf⟩ := hf
  · simp only [decode1, unlessFaulted_ready h, hf]
  · simp only [decode1, unlessFaulted_ready h, hf]

/-- R156. -/
theorem decode1_deliver (h : s.spErr = 0) (hf : frame s.maxLen.val s.spBuf = .whole l)
    (hv : s.spStrict = true → verify s.spBuf l = .good) : decode1 s = deliver l s := by
  cases hs : s.spStrict with
  | false => simp [decode1, unlessFaulted_ready h, hf, hs]
  | true => simp [decode1, unlessFaulted_ready h, hf, hs, hv hs]

/-- R158, the length checksum. -/
theorem decode1_badLen (h : s.spErr = 0) (hs : s.spStrict = true) (hf : frame s.maxLen.val s.spBuf = .whole l)
    (hv : verify s.spBuf l = .badLen) : decode1 s = raiseFault .cklen s := by
  simp only [decode1, unlessFaulted_ready h, hf, if_pos hs, hv]

/-- R158, the payload checksum. -/
theorem decode1_badPay (h : s.spErr = 0) (hs : s.spStrict = true) (hf : frame s.maxLen.val s.spBuf = .whole l)
    (hv : verify s.spBuf l = .badPay) : decode1 s = raiseFault .ckpay s := by
  simp only [decode1, unlessFaulted_ready h, hf, if_pos hs, hv]

theorem lacking_noRecord (h : s.spEoi = false) : lacking s = (s, Response.bare .noRecord) := by simp [lacking, h]

theorem lacking_eof (h : s.spEoi = true) (hbuf : s.spBuf = []) : lacking s = (s, Response.bare .eof) := by
  simp [lacking, h, hbuf]

theorem lacking_trunc (h : s.spEoi = true) (hbuf : s.spBuf ≠ []) : lacking s = raiseFault .trunc s := by
  simp [lacking, h, hbuf]

end

/-- A failure status is latched in `SP_ERR` (R206). -/
theorem decode1_failure_latched {s : State} (h : (decode1 s).2.status.kind = .failure) :
    (decode1 s).1.spErr = (decode1 s).2.status.code := by
  obtain ⟨_, hd⟩ | ⟨_, ⟨_, _, hd⟩ | ⟨_, hd⟩ | ⟨_, _, _, ⟨_, hd⟩ | ⟨_, hd⟩⟩ | ⟨_, _, _, hd⟩⟩ := decode1_cases s
  · rw [hd] at h; cases h
  · rw [hd]; rfl
  · obtain ⟨_, hl⟩ | ⟨_, _, hl⟩ | ⟨_, _, hl⟩ := lacking_cases s
    · rw [hd, hl] at h; cases h
    · rw [hd, hl] at h; cases h
    · rw [hd, hl]; rfl
  · rw [hd]; rfl
  · rw [hd]; rfl
  · rw [hd] at h; cases h

/-- What an OK decode answers is what it removes from the buffer (R156). -/
theorem decode1_ok_value {s : State} (h : (decode1 s).2.status = .ok) :
    (decode1 s).2.value.toNat + (decode1 s).1.spBuf.length ≤ s.spBuf.length := by
  obtain ⟨_, l, hf, _, hd⟩ := decode1_ok h
  obtain ⟨_, _, _, hlen⟩ := (frame_whole_iff _ _ _).1 hf
  have hval : (BitVec.ofNat 64 (16 + l)).toNat ≤ 16 + l := Nat.mod_le _ _
  rw [hd]
  simp only [deliver, consume_spBuf, List.length_drop]
  omega

/-! ### The loop of `SP.DECODEALL` -/

/-- What a decode answered, put in front of what the decodes after it give together (R159). -/
def prependResponse (r : Response) (p : State × Response) : State × Response :=
  (p.1, ⟨p.2.status, r.value + p.2.value, [], r.records ++ p.2.records⟩)

/-- A first decode that does not answer OK ends the run, the FAULTED refusal included. -/
theorem decodeAll_stop {s : State} (h : (decode1 s).2.status ≠ .ok) : decodeAll s = finishAll 0 [] (decode1 s) := by
  by_cases herr : s.spErr = 0
  · rw [decodeAll, unlessFaulted_ready herr, decodeAllLoop_stop _ _ _ _ h]
  · rw [decodeAll, decode1, unlessFaulted_faulted herr, unlessFaulted_faulted herr]
    rfl

/-- A first decode that answers OK is followed by the run on the state it leaves. -/
theorem decodeAll_turn {s : State} (h : (decode1 s).2.status = .ok) :
    decodeAll s = prependResponse (decode1 s).2 (decodeAll (decode1 s).1) := by
  obtain ⟨herr, l, -, -, hd⟩ := decode1_ok h
  have herr' : (decode1 s).1.spErr = 0 := by rw [hd]; exact herr
  have hshort := decode1_ok_shorter h
  obtain ⟨n, hn⟩ : ∃ n, s.spBuf.length / 16 = n + 1 := ⟨s.spBuf.length / 16 - 1, by omega⟩
  rw [decodeAll, decodeAll, unlessFaulted_ready herr, unlessFaulted_ready herr', hn, decodeAllLoop_turn _ _ _ _ h,
    decodeAllLoop_fuel n ((decode1 s).1.spBuf.length / 16) _ _ _ (by omega) (by omega), decodeAllLoop_collected]
  simp [prependResponse]

/-- What holds where a decode does not answer OK, and passes back over one that does, holds of every state: each OK
decode shortens the buffer. -/
theorem decodeAll_induction {P : State → Prop} (stop : ∀ s, (decode1 s).2.status ≠ .ok → P s)
    (turn : ∀ s, (decode1 s).2.status = .ok → P (decode1 s).1 → P s) (s : State) : P s := by
  induction hn : s.spBuf.length using Nat.strong_induction_on generalizing s with
  | _ n ih =>
    by_cases h : (decode1 s).2.status = .ok
    · have hshort := decode1_ok_shorter h
      exact turn s h (ih _ (by omega) _ rfl)
    · exact stop s h

/-- A run changes the buffer, the cursor and the fault register only. -/
theorem decodeAll_frame (s : State) :
    (decodeAll s).1 = { s with
      spBuf := (decodeAll s).1.spBuf, spOffset := (decodeAll s).1.spOffset, spErr := (decodeAll s).1.spErr } := by
  induction s using decodeAll_induction with
  | stop s h =>
    rw [decodeAll_stop h]
    exact decode1_frame s
  | turn s h ih =>
    rw [decodeAll_turn h, prependResponse]
    rw [decode1_frame s] at ih ⊢
    exact ih

theorem decodeAll_status_ne_ok (s : State) : (decodeAll s).2.status ≠ .ok := by
  induction s using decodeAll_induction with
  | stop s h =>
    rw [decodeAll_stop h]
    exact h
  | turn s h ih =>
    rw [decodeAll_turn h]
    exact ih

/-- A failure status is latched in `SP_ERR` (R206). -/
theorem decodeAll_failure_latched (s : State) :
    (decodeAll s).2.status.kind = .failure → (decodeAll s).1.spErr = (decodeAll s).2.status.code := by
  induction s using decodeAll_induction with
  | stop s h =>
    rw [decodeAll_stop h]
    exact decode1_failure_latched
  | turn s h ih =>
    rw [decodeAll_turn h]
    exact ih

/-- The sum is no more than was buffered. -/
theorem decodeAll_value_le (s : State) : (decodeAll s).2.value.toNat ≤ s.spBuf.length := by
  induction s using decodeAll_induction with
  | stop s h =>
    rw [decodeAll_stop h]
    exact Nat.zero_le _
  | turn s h ih =>
    rw [decodeAll_turn h]
    calc ((decode1 s).2.value + (decodeAll (decode1 s).1).2.value).toNat
        ≤ (decode1 s).2.value.toNat + (decodeAll (decode1 s).1).2.value.toNat := by
          rw [BitVec.toNat_add]; exact Nat.mod_le _ _
      _ ≤ (decode1 s).2.value.toNat + (decode1 s).1.spBuf.length := Nat.add_le_add_left ih _
      _ ≤ s.spBuf.length := decode1_ok_value h

/-! ### `SP.DECODE1`, `SP.DECODEALL` and `SP.VERIFY` as commands -/

theorem exec_spDecode1 (s : State) :
    exec .spDecode1 s = .next { (decode1 s).1 with outbox := s.outbox ++ [(decode1 s).2] } := by
  have hout : (decode1 s).1.outbox = s.outbox := by rw [decode1_frame]
  rw [← hout]
  rfl

theorem exec_spDecodeall (s : State) :
    exec .spDecodeall s = .next { (decodeAll s).1 with outbox := s.outbox ++ [(decodeAll s).2] } := by
  have hout : (decodeAll s).1.outbox = s.outbox := by rw [decodeAll_frame]
  rw [← hout]
  rfl

/-- An oversized length faults SIZEOVF (R155). -/
theorem exec_spDecode1_oversized {s : State} (h : s.spErr = 0) (hlen : 8 ≤ s.spBuf.length)
    (hover : s.maxLen.val < fromLe (s.spBuf.take 8)) :
    exec .spDecode1 s = .next { s with
      spErr := 0xB, outbox := s.outbox ++ [⟨.sizeovf, 0, [], []⟩] } := by
  have hf := (frame_tooLong_iff _ _ _).2 ⟨hlen, rfl, hover⟩
  rw [exec_spDecode1, decode1_tooLong h hf]
  rfl

/-- What `SP.VERIFY` answers for a whole record of payload length `l` (R160). -/
def verdictResponse (l : Nat) : Verdict → Response
  | .badLen => Response.bare .cklen
  | .badPay => Response.bare .ckpay
  | .good => ⟨.ok, BitVec.ofNat 64 (16 + l), [], []⟩

section
variable {s : State} {l : Nat}

/-- R160, lacking bytes. -/
theorem exec_spVerify_lacking (h : s.spErr = 0) (hf : LacksBytes s) :
    exec .spVerify s = .next (emit s (Response.bare .noRecord)) := by
  obtain hf | ⟨l, hf⟩ := hf
  · simp only [exec, execSpVerify, unlessFaulted_ready h, hf, answer_eq]
  · simp only [exec, execSpVerify, unlessFaulted_ready h, hf, answer_eq]

/-- R160, an oversized length. -/
theorem exec_spVerify_tooLong (h : s.spErr = 0) (hf : frame s.maxLen.val s.spBuf = .tooLong l) :
    exec .spVerify s = .next (emit s (Response.bare .sizeovf)) := by
  simp only [exec, execSpVerify, unlessFaulted_ready h, hf, answer_eq]

/-- R160, a whole record. -/
theorem exec_spVerify_whole (h : s.spErr = 0) (hf : frame s.maxLen.val s.spBuf = .whole l) :
    exec .spVerify s = .next (emit s (verdictResponse l (verify s.spBuf l))) := by
  simp only [exec, execSpVerify, unlessFaulted_ready h, hf, answer_eq]
  cases verify s.spBuf l <;> rfl

end

/-- `SP.VERIFY` answers and changes nothing (R160). -/
theorem exec_spVerify_changes_nothing (s : State) : ∃ r, exec .spVerify s = .next (emit s r) := by
  by_cases h : s.spErr = 0
  case neg => exact ⟨_, exec_sp_faulted rfl (by decide) h⟩
  cases hf : frame s.maxLen.val s.spBuf with
  | short => exact ⟨_, exec_spVerify_lacking h (.inl hf)⟩
  | incomplete l => exact ⟨_, exec_spVerify_lacking h (.inr ⟨l, hf⟩)⟩
  | tooLong l => exact ⟨_, exec_spVerify_tooLong h hf⟩
  | whole l => exact ⟨_, exec_spVerify_whole h hf⟩

/-! ### The end-of-input flag -/

/-- A command of another unit leaves the parser's registers as they are (R20). -/
theorem exec_spRegs_of_other_unit {i : Instr} {s t : State} (h : unitOf i ≠ .sp) (hexec : exec i s = .next t) :
    t.spRegs = s.spRegs := by
  obtain ⟨p, hp, hout, -⟩ := exec_answers i s
  have hframe : withParserOf s p.1 = p.1 := exec_other_unit h hp hout
  rw [hp, answer_eq] at hexec
  rw [← Host.Outcome.next.inj hexec, ← hframe]
  rfl

/-- An SP command but `SP.CLEAR` keeps an asserted end of input (R161). -/
theorem exec_sp_keeps_spEoi {i : Instr} {s : State} (hi : unitOf i = .sp) (hc : i ≠ .spClear) (heoi : s.spEoi = true) :
    ∃ p, exec i s = answer p ∧ p.1.spEoi = true := by
  by_cases h : s.spErr = 0
  case neg => exact ⟨_, exec_sp_faulted hi hc h, heoi⟩
  cases i with
  | spClear => exact absurd rfl hc
  | spPush b => exact ⟨_, exec_spPush_after_end h heoi b, heoi⟩
  | spDecode1 => exact ⟨decode1 s, rfl, by rw [decode1_frame]; exact heoi⟩
  | spDecodeall => exact ⟨decodeAll s, rfl, by rw [decodeAll_frame]; exact heoi⟩
  | spVerify =>
    obtain ⟨r, hr⟩ := exec_spVerify_changes_nothing s
    exact ⟨(s, r), hr, heoi⟩
  | spEnd => exact ⟨_, exec_spEnd_ready h, rfl⟩
  | spSetmode b => exact ⟨_, exec_spSetmode_ready h b, heoi⟩
  | _ => simp [unitOf, opcodeOf] at hi

/-- Every command but `SP.CLEAR` keeps an asserted end of input (R161). -/
theorem exec_keeps_spEoi {i : Instr} {s t : State} (hc : i ≠ .spClear) (heoi : s.spEoi = true)
    (hexec : exec i s = .next t) : t.spEoi = true := by
  by_cases hi : unitOf i = .sp
  · obtain ⟨p, hp, hpe⟩ := exec_sp_keeps_spEoi hi hc heoi
    rw [hp, answer_eq] at hexec
    exact Host.Outcome.next.inj hexec ▸ hpe
  · exact (congrArg SpRegs.eoi (exec_spRegs_of_other_unit hi hexec)).trans heoi

/-! ### The fault register -/

/-- Only register 8 shows the fault (R191). -/
theorem regValue_with_spErr {n : Byte} (hn : n ≠ 8) (s : State) (e : BitVec 4) :
    regValue { s with spErr := e } n = regValue s n := by
  have hn' : n.toNat ≠ 8 := fun h => hn (BitVec.eq_of_toNat_eq h)
  unfold regValue
  split
  case h_9 h => exact absurd h hn'
  all_goals rfl

/-- A command of SYS, CE or RF does the same whatever the fault register holds, but `SYS.RDREG 8` (R164). -/
theorem exec_with_spErr {i : Instr} (hi : unitOf i ≠ .sp) (hr : i ≠ .sysRdreg 8) (s : State) (e : BitVec 4) :
    ∃ t, exec i { s with spErr := e } = .next t ∧ exec i s = .next { t with spErr := s.spErr } := by
  by_cases hsys : unitOf i = .sys
  case pos =>
    cases i with
    | sysRdreg n =>
      have hreg := regValue_with_spErr (n := n) (by rintro rfl; exact hr rfl) s e
      simp only [exec, execSysRdreg, hreg]
      cases regValue s n with
      | none => exact ⟨_, rfl, rfl⟩
      | some v => exact ⟨_, rfl, rfl⟩
    | _ => simp [unitOf, opcodeOf] at hsys
  obtain ⟨p, hp, hown, hlocal⟩ := exec_local i hsys s { s with spErr := e }
  cases hu : unitOf i with
  | sys => exact absurd hu hsys
  | sp => exact absurd hu hi
  | ce =>
    rw [hu] at hown hlocal
    exact ⟨_, hlocal, hp.trans (congrArg (fun t => Host.Outcome.next (emit t p.2)) hown)⟩
  | rf =>
    rw [hu] at hown hlocal
    exact ⟨_, hlocal, hp.trans (congrArg (fun t => Host.Outcome.next (emit t p.2)) hown)⟩

/-! ### The obligations -/

/-- Settles O40: the loop is `decodeAll_turn` and `decodeAll_stop`; what holds of any run comes by `decodeAll_induction`. -/
theorem spDecodeallLoopsDecode1 : Obligations.SpDecodeallLoopsDecode1 := by
  refine ⟨fun arg => decode_append 0x32 arg, fun s h => exec_sp_faulted rfl (by decide) h, fun s => ?_, fun s _ => ?_⟩
  · exact ⟨_, _, exec_spDecodeall s, decodeAll_status_ne_ok s, decodeAll_failure_latched s,
      (decodeAll_value_le s).trans⟩
  · refine ⟨_, _, exec_spDecode1 s, ?_⟩
    split
    case isTrue h =>
      refine ⟨_, _, exec_spDecodeall _, ?_⟩
      rw [exec_spDecodeall, decodeAll_turn h]
      rfl
    case isFalse h =>
      rw [exec_spDecodeall, decodeAll_stop h]
      rfl

/-- Settles O46: the row of the opcode map, `exec_keeps_spEoi`, reset, and the two branches of `SP.END`. -/
theorem spEndAssertsEndOfInput : Obligations.SpEndAssertsEndOfInput :=
  ⟨fun arg => decode_append 0x34 arg, fun _ _ _ hc heoi hexec => exec_keeps_spEoi hc heoi hexec,
    fun _ _ hin => ⟨_, step_rst hin, applyReset_spEoi _⟩,
    fun _ => ⟨exec_sp_faulted rfl (by decide), exec_spEnd_ready⟩⟩

/-- Settles O49: the FAULTED test of the SP commands, and `exec_with_spErr` for those of the other units. -/
theorem faultedParserRefuses : Obligations.FaultedParserRefuses :=
  fun _ s h => ⟨fun hi hc => exec_sp_faulted hi hc h, fun hi hr => exec_with_spErr hi hr s 0⟩

/-- Settles O32: the row of the opcode map, and the accepting branch of `SP.PUSH`. -/
theorem spPushAppendsByte : Obligations.SpPushAppendsByte := by
  refine ⟨fun arg => decode_append 0x30 arg, fun b s h heoi hlen => ?_⟩
  rw [exec_spPush_accepted h heoi hlen, countU64, List.length_append, List.length_singleton]

/-- Settles O33: the three refusing branches of `SP.PUSH`. -/
theorem spPushRefusals : Obligations.SpPushRefusals :=
  fun b _ => ⟨exec_sp_faulted (unitOf_spPush b) (by simp), fun h heoi => exec_spPush_after_end h heoi b,
    fun h heoi hlen => exec_spPush_full h heoi hlen.ge b⟩

/-- Settles O36: both checksums right make the verdict good, and the record is delivered. -/
theorem spDecode1Delivers : Obligations.SpDecode1Delivers := by
  intro s l h hf hsums
  have hd : decode1 s = deliver l s := decode1_deliver h hf fun hs => (hsums hs).elim verify_good
  rw [exec_spDecode1, hd]
  rfl

/-- Settles O37: `decode1_lacking`, and the three branches of `lacking`. -/
theorem spDecode1LackingBytes : Obligations.SpDecode1LackingBytes := by
  intro s h hf
  rw [exec_spDecode1, decode1_lacking h hf]
  refine ⟨fun heoi => ?_, fun heoi hbuf => ?_, fun heoi hbuf => ?_⟩
  · rw [lacking_noRecord heoi]
    rfl
  · rw [lacking_eof heoi hbuf]
    rfl
  · rw [lacking_trunc heoi hbuf]
    rfl

/-- Settles O38: `exec_spDecode1_oversized`; eight bytes FF hold more than any capacity. -/
theorem spDecode1RejectsOversized : Obligations.SpDecode1RejectsOversized := by
  refine ⟨fun s h hlen hover => ?_, fun s more h hbuf => ?_⟩
  · rw [slice_zero] at hover
    exact exec_spDecode1_oversized h hlen hover
  · have hones : fromLe (List.replicate 8 0xFF) = 2 ^ 64 - 1 := by decide
    have htake : s.spBuf.take 8 = List.replicate 8 0xFF := by rw [hbuf]; rfl
    have hcap := s.maxLen.isLt
    refine exec_spDecode1_oversized h (by simp [hbuf]) ?_
    rw [htake, hones]
    omega

/-- Settles O39: the tests of `verify`, and the two faults of a strict decode. -/
theorem spDecode1StrictMismatch : Obligations.SpDecode1StrictMismatch := by
  refine ⟨fun buf l => rfl, fun s l h hs hf => ⟨fun hlen => ?_, fun hlen hpay => ?_⟩⟩
  · rw [exec_spDecode1, decode1_badLen h hs hf (verify_badLen hlen)]
    rfl
  · rw [exec_spDecode1, decode1_badPay h hs hf (verify_badPay hlen hpay)]
    rfl

/-- Settles O44: the row of the opcode map, and the branches of `SP.VERIFY` in their order. -/
theorem spVerifyReports : Obligations.SpVerifyReports := by
  refine ⟨fun arg => decode_append 0x33 arg, fun s => ?_⟩
  simp only [slice_zero]
  split_ifs with herr hshort hover hmore hlen hpay
  · exact exec_sp_faulted rfl (by decide) herr
  all_goals have herr := not_not.1 herr
  · exact exec_spVerify_lacking herr (.inl ((frame_short_iff _ _).2 hshort))
  · exact exec_spVerify_tooLong herr ((frame_tooLong_iff _ _ _).2 ⟨not_lt.1 hshort, rfl, hover⟩)
  · exact exec_spVerify_lacking herr
      (.inr ⟨_, (frame_incomplete_iff _ _ _).2 ⟨not_lt.1 hshort, rfl, not_lt.1 hover, hmore⟩⟩)
  all_goals
    have hf := (frame_whole_iff _ _ _).2 ⟨not_lt.1 hshort, rfl, not_lt.1 hover, not_lt.1 hmore⟩
    rw [exec_spVerify_whole herr hf]
  · rw [verify_badLen hlen]
    rfl
  · rw [verify_badPay (not_not.1 hlen) hpay]
    rfl
  · rw [verify_good (not_not.1 hlen) (not_not.1 hpay)]
    rfl

/-- Settles O47: the row of the opcode map, and the two branches of `SP.SETMODE`. -/
theorem spSetmodeSelectsMode : Obligations.SpSetmodeSelectsMode :=
  ⟨fun arg => decode_append 0x36 arg,
    fun b _ => ⟨exec_sp_faulted (unitOf_spSetmode b) (by simp), fun h => exec_spSetmode_ready h b⟩⟩

/-- Settles O48: the row of the opcode map, the FAULTED test of the other SP commands, and `SP.CLEAR` itself. -/
theorem spClearEmptiesParser : Obligations.SpClearEmptiesParser := by
  refine ⟨fun arg => decode_append 0x35 arg, fun i s t hi hc h hexec => ?_, fun s => rfl⟩
  rw [exec_sp_faulted hi hc h] at hexec
  exact Host.Outcome.next.inj hexec ▸ rfl

end Sys2Proof.Machine
end

section
/-! The system command (spec/43_system.md): what `SYS.RDREG` answers for an assigned and for an unassigned number (R190,
R192), and the registers of R191 whose reading is a view of a state field. -/

namespace Sys2Proof.Machine

/-! ### What a register reads -/

/-- Register 1, the phase as a number (R24, R191). -/
theorem rfPhase_bit_setWidth (s : State) :
    s.rfPhase.bit.setWidth 64 = if s.rfPhase = .payload then (1 : U64) else 0 := by
  cases s.rfPhase with
  | idle => rfl
  | payload => rfl

/-- Register 7, the two mode bits in their places (R33, R191). -/
theorem spCtrl_eq_add (s : State) : spCtrl s = (if s.spStrict then 1 else 0) + (if s.spEoi then 2 else 0) := by
  unfold spCtrl
  cases s.spStrict <;> cases s.spEoi <;> rfl

/-- Only numbers 0 to 9 are assigned (R192). -/
theorem regValue_unassigned {n : Byte} (hn : 10 ≤ n.toNat) (s : State) : regValue s n = none := by
  unfold regValue
  split
  case h_11 => rfl
  all_goals omega

/-! ### What the command does to the state -/

/-- R190. -/
theorem exec_sysRdreg_assigned {n : Byte} {s : State} {v : U64} (h : regValue s n = some v) :
    exec (.sysRdreg n) s = .next { s with outbox := s.outbox ++ [⟨.ok, v, [], []⟩] } := by
  simp only [exec, execSysRdreg, h]
  rfl

/-- R192. -/
theorem exec_sysRdreg_unassigned {n : Byte} {s : State} (h : regValue s n = none) :
    exec (.sysRdreg n) s = answer (refuse .badcmd s) := by
  simp only [exec, execSysRdreg, h]

/-- Settles O54: the row of the opcode map, and for each number the register `regValue` finds or that it finds none. -/
theorem rdregReadsRegisters : Obligations.RdregReadsRegisters := by
  refine ⟨fun arg => decode_append 0x01 arg, fun n s => ?_⟩
  rw [← rfPhase_bit_setWidth, ← spCtrl_eq_add]
  split_ifs
  case neg =>
    have hn : 10 ≤ n.toNat := by bv_omega
    exact exec_sysRdreg_unassigned (regValue_unassigned hn s)
  all_goals
    subst n
    exact exec_sysRdreg_assigned rfl

end Sys2Proof.Machine
end

section
/-! Words and back (spec/30_encoding.md R75 to R77): the word of a command sets no bit its format ignores
(`Laws.EncodedWord`), so by `decode_ok_iff` it decodes to that command. -/

namespace Sys2Proof

/-- `Laws.EncodedWord` for every command. -/
theorem Laws.EncodedWord.all (i : Instr) : Laws.EncodedWord.Statement i := by
  cases i with
  | sysRdreg n => exact Laws.EncodedWord.sysRdreg n
  | ceInit => exact Laws.EncodedWord.ceInit
  | ceUpdate b => exact Laws.EncodedWord.ceUpdate b
  | ceFinal => exact Laws.EncodedWord.ceFinal
  | rfStart len => exact Laws.EncodedWord.rfStart len
  | rfData b => exact Laws.EncodedWord.rfData b
  | spPush b => exact Laws.EncodedWord.spPush b
  | spDecode1 => exact Laws.EncodedWord.spDecode1
  | spDecodeall => exact Laws.EncodedWord.spDecodeall
  | spVerify => exact Laws.EncodedWord.spVerify
  | spEnd => exact Laws.EncodedWord.spEnd
  | spClear => exact Laws.EncodedWord.spClear
  | spSetmode strict => exact Laws.EncodedWord.spSetmode strict

/-- No bit outside the mask means that the mask keeps every bit. -/
theorem and_eq_self_of_and_not_eq_zero {w : Nat} {x m : BitVec w} (h : x &&& ~~~m = 0) : x &&& m = x := by
  ext k hk
  have hbit : (x &&& ~~~m).getLsbD k = false := by simp [h]
  simp only [BitVec.getLsbD_and, BitVec.getLsbD_not, hk] at hbit
  simp only [← BitVec.getLsbD_eq_getElem, BitVec.getLsbD_and]
  cases hx : x.getLsbD k <;> simp_all

/-- Every command is the one its word decodes to (R76, R77). -/
@[simp] theorem decode_encode (i : Instr) : decode (encode i) = .ok i := by
  obtain ⟨-, -, hzero⟩ := Laws.EncodedWord.all i
  rw [decode_ok_iff, and_eq_self_of_and_not_eq_zero hzero, word_eq_fields]

/-- Every command's word is one an assembler writes (R81, R82). -/
theorem Instr.wellFormed_eq_true (i : Instr) : i.wellFormed = true := by
  obtain ⟨-, -, hzero⟩ := Laws.EncodedWord.all i
  simp only [Instr.wellFormed, CmdWord.wellFormed, CmdWord.assigned, CmdWord.ignoredZero, decode_encode, hzero,
    beq_self_eq_true, Bool.and_self]

/-- Settles O3: `decode_encode`, and that the word is well-formed. -/
theorem encodeDecodeRoundTrip : Obligations.EncodeDecodeRoundTrip :=
  fun i => ⟨i.wellFormed_eq_true, decode_encode i⟩

/-- Settles O2: the nine words are literals; the decoder is evaluated on each. -/
theorem wordsOfTheSpecDecode : Obligations.WordsOfTheSpecDecode := by
  unfold Obligations.WordsOfTheSpecDecode
  decide

end Sys2Proof
end

section
/-! Steps (spec/20_memory.md R58, spec/70_reset_and_hazards.md R230, R243): `step_cases` says once what a step can take,
and the commands of a sequence run one after another, each answered (R78). -/

namespace Sys2Proof.Machine

/-- A step that takes a word of the command `i` (R22, R58). -/
theorem step_command {s : State} {w : CmdWord} {rest : List PortEvent} {i : Instr}
    (hin : s.inbox = .command w :: rest) (hw : decode w = .ok i) : step s = exec i (takeEvent rest s) := by
  simp only [step, hin, hw]

/-- A step with nothing asked (R243). -/
theorem step_quiescent {s : State} (hin : s.inbox = []) : step s = .next s := by
  simp only [step, hin]

/-- All a step can do: nothing, take a reset, run a command, or refuse a reserved opcode. -/
theorem step_cases (s : State) :
    (s.inbox = [] ∧ step s = .next s) ∨
    (∃ rest, s.inbox = .rst :: rest ∧ step s = .next (applyReset (takeEvent rest s))) ∨
    (∃ w rest i, s.inbox = .command w :: rest ∧ decode w = .ok i ∧ step s = exec i (takeEvent rest s)) ∨
    (∃ rest, step s = answerReserved (takeEvent rest s)) := by
  cases hin : s.inbox with
  | nil => exact .inl ⟨rfl, step_quiescent hin⟩
  | cons e rest =>
    cases e with
    | rst => exact .inr (.inl ⟨rest, rfl, step_rst hin⟩)
    | command w =>
      cases hw : decode w with
      | ok i => exact .inr (.inr (.inl ⟨w, rest, i, rfl, hw, step_command hin hw⟩))
      | error e =>
        cases e with
        | reservedOpcode op => exact .inr (.inr (.inr ⟨rest, by simp only [step, hin, hw]⟩))

/-- Settles O6: `step_command`. -/
theorem stepRunsDecodedCommand : Obligations.StepRunsDecodedCommand :=
  fun _ _ _ _ hin hw => step_command hin hw

/-- Settles O7: `step_quiescent`. -/
theorem quiescentWithoutCommand : Obligations.QuiescentWithoutCommand :=
  fun _ hin => step_quiescent hin

/-- Settles O8: `step_rst`; the registers are those of `applyReset`. -/
theorem resetInputRestoresRegisters : Obligations.ResetInputRestoresRegisters :=
  fun _ _ hin => step_rst hin

/-- Settles O10: `State.resetWith` is IDLE with nothing owed, nothing buffered and no fault, whatever the capacity. -/
theorem invariantAfterReset : Obligations.InvariantAfterReset := by
  have hinv : ∀ m : MaxLen, (State.resetWith m).Inv := fun m => by simp [State.Inv, State.resetWith]
  exact ⟨hinv Config.maxLen, hinv⟩

/-- Every command sequence runs from every state, keeps the inbox and the capacity, and is answered (R58, R78). -/
theorem exists_ran (cs : List Instr) (s : State) :
    ∃ rs t, Ran cs s rs t ∧ t.inbox = s.inbox ∧ t.maxLen = s.maxLen := by
  induction cs generalizing s with
  | nil => exact ⟨[], s, Ran.nil s, rfl, rfl⟩
  | cons i cs ih =>
    obtain ⟨p, hp, hout, hin, hmax⟩ := exec_answers i s
    obtain ⟨rs, t, hran, htin, htmax⟩ := ih (emit p.1 p.2)
    exact ⟨p.2 :: rs, t, Ran.cons hp (by rw [emit_outbox, hout]) hran, htin.trans hin, htmax.trans hmax⟩

/-- Settles O12: `exists_ran`. -/
theorem everyCommandIsAnsweredOnce : Obligations.EveryCommandIsAnsweredOnce := exists_ran

/-- Settles O13, by induction on the sequence: a step takes the first word and runs its command (`decode_encode`),
which does not look at the words behind it (`exec_inbox`). -/
theorem offeredWordsRunInOrder : Obligations.OfferedWordsRunInOrder := by
  intro cs s rest
  induction cs generalizing s with
  | nil => rfl
  | cons i cs ih =>
    obtain ⟨p, hp, hbehind⟩ := exec_inbox i { s with inbox := rest } (cs.map (.command ∘ encode) ++ rest)
    have hown : p.1.inbox = rest := by
      obtain ⟨q, hq, hqout, hqin, -⟩ := exec_answers i { s with inbox := rest }
      rw [hp, answer_eq, answer_eq] at hq
      exact (congrArg State.inbox (Host.Outcome.next.inj hq)).trans hqin
    have hstep := step_command (s := { s with inbox := (i :: cs).map (.command ∘ encode) ++ rest }) rfl
      (decode_encode i)
    have hsame : { emit p.1 p.2 with inbox := rest } = emit p.1 p.2 := by rw [← hown]; rfl
    refine (core_run_next _ (hstep.trans hbehind)).trans ((ih (emit p.1 p.2)).trans ?_)
    rw [hsame, runCmds_cons cs hp]

end Sys2Proof.Machine
end

section
/-! What a checksum sees (spec/40_checksum_engine.md part 1): the table is linear because each round of its construction
is (R105, R106); the top byte of an entry tells its index, so the byte step of R101 can be undone; and the mask of R104
is a bijection. Together: one byte changed changes the masked checksum (R115). -/

namespace Sys2Proof.Machine

/-! ### The table -/

/-- One round of R106 is linear over XOR. -/
theorem tableRound_xor (c d : U32) : tableRound (c ^^^ d) = tableRound c ^^^ tableRound d := by
  unfold tableRound
  rw [BitVec.getLsbD_xor, BitVec.ushiftRight_xor_distrib]
  generalize c >>> 1 = c', d >>> 1 = d', (0x82F63B78 : U32) = poly
  cases c.getLsbD 0 <;> cases d.getLsbD 0
  · rfl
  · exact BitVec.xor_assoc _ _ _
  · exact (by ac_rfl : c' ^^^ d' ^^^ poly = c' ^^^ poly ^^^ d')
  · have hcancel : c' ^^^ poly ^^^ (d' ^^^ poly) = c' ^^^ d' ^^^ (poly ^^^ poly) := by ac_rfl
    simp [hcancel]

theorem tableBuilt_xor (i j : Byte) : tableBuilt (i ^^^ j) = tableBuilt i ^^^ tableBuilt j := by
  simp only [tableBuilt, BitVec.setWidth_xor, tableRound_xor]

theorem tableEntry_xor (i j : Byte) : tableEntry (i ^^^ j) = tableEntry i ^^^ tableEntry j := by
  simp only [tableEntry_eq_tableBuilt, tableBuilt_xor]

/-- Settles O17: `tableEntry_eq_tableBuilt`. -/
theorem tableListingIsConstruction : Obligations.TableListingIsConstruction := tableEntry_eq_tableBuilt

/-- Settles O18: `tableEntry_xor`. -/
theorem tableIsLinear : Obligations.TableIsLinear := tableEntry_xor

/-- Only entry 0 has a zero top byte; the 256 entries are literal data. -/
theorem eq_zero_of_tableEntry_top_eq_zero : ∀ i : Byte, (tableEntry i).extractLsb' 24 8 = 0 → i = 0 := by decide

/-- The top byte of an entry tells its index: by linearity it is enough that it tells index 0. -/
theorem tableEntry_top_inj {i j : Byte}
    (h : (tableEntry i).extractLsb' 24 8 = (tableEntry j).extractLsb' 24 8) : i = j := by
  have hzero : (tableEntry (i ^^^ j)).extractLsb' 24 8 = 0 := by
    rw [tableEntry_xor, BitVec.extractLsb'_xor, h, BitVec.xor_self]
    rfl
  exact BitVec.xor_eq_zero_iff.1 (eq_zero_of_tableEntry_top_eq_zero _ hzero)

/-! ### The byte step -/

/-- The top byte of a new running value is that of the entry the step looked up. -/
theorem crcStep_top (c : U32) (b : Byte) :
    (crcStep c b).extractLsb' 24 8 = (tableEntry (c.setWidth 8 ^^^ b)).extractLsb' 24 8 := by
  have hshift : (c >>> 8).extractLsb' 24 8 = 0 := by
    ext k hk
    simp [show 32 ≤ 8 + (24 + k) by omega]
  rw [crcStep, BitVec.extractLsb'_xor, hshift]
  exact BitVec.zero_xor

/-- Equal new values come from the same table index and the same upper three bytes. -/
theorem crcStep_inj {c d : U32} {b b' : Byte} (h : crcStep c b = crcStep d b') :
    c.setWidth 8 ^^^ b = d.setWidth 8 ^^^ b' ∧ c >>> 8 = d >>> 8 := by
  have hindex : c.setWidth 8 ^^^ b = d.setWidth 8 ^^^ b' :=
    tableEntry_top_inj (by rw [← crcStep_top, ← crcStep_top, h])
  refine ⟨hindex, ?_⟩
  rw [crcStep, crcStep, hindex] at h
  exact (BitVec.xor_left_inj _).1 h

/-- Two bytes lead one running value to two. -/
theorem crcStep_byte_inj {c : U32} {b b' : Byte} (h : crcStep c b = crcStep c b') : b = b' :=
  (BitVec.xor_right_inj _).1 (crcStep_inj h).1

/-- One byte leads two running values to two. -/
theorem crcStep_value_inj {c d : U32} {b : Byte} (h : crcStep c b = crcStep d b) : c = d := by
  obtain ⟨hindex, hupper⟩ := crcStep_inj h
  have hlow : c.setWidth 8 = d.setWidth 8 := (BitVec.xor_left_inj _).1 hindex
  have hlow' := congrArg BitVec.toNat hlow
  have hupper' := congrArg BitVec.toNat hupper
  simp only [BitVec.toNat_setWidth, BitVec.toNat_ushiftRight, Nat.shiftRight_eq_div_pow] at hlow' hupper'
  exact BitVec.eq_of_toNat_eq (by omega)

theorem crcRun_value_inj {s : List Byte} {c d : U32} (h : crcRun c s = crcRun d s) : c = d := by
  induction s generalizing c d with
  | nil => exact h
  | cons b s ih => exact crcStep_value_inj (ih h)

/-! ### The mask -/

/-- Where the rotation of R104 puts bit `k`. -/
theorem getLsbD_rotateRight_15 (c : U32) {k : Nat} (hk : k < 32) :
    (c.rotateRight 15).getLsbD (if k < 15 then k + 17 else k - 15) = c.getLsbD k := by
  rw [BitVec.getLsbD_rotateRight]
  by_cases hlow : k < 15
  · simp [hlow, hk, show k + 17 < 32 by omega]
  · simp [hlow, show k - 15 < 17 by omega, show 15 + (k - 15) = k by omega]

theorem rotateRight_15_inj {c d : U32} (h : c.rotateRight 15 = d.rotateRight 15) : c = d := by
  apply BitVec.eq_of_getLsbD_eq
  intro k hk
  rw [← getLsbD_rotateRight_15 c hk, ← getLsbD_rotateRight_15 d hk, h]

theorem mask32_inj {c d : U32} (h : mask32 c = mask32 d) : c = d := by
  simp only [mask32_eq_rotateRight] at h
  exact rotateRight_15_inj ((BitVec.add_left_inj _).1 h)

/-- Settles O20: the two shifts are the rotation, `mask32_inj`, and an injection of a finite type into itself reaches
every value. -/
theorem maskIsBijective : Obligations.MaskIsBijective := by
  have hfin : Finite U32 := .of_equiv _ BitVec.equivFin.symm.toEquiv
  exact ⟨mask32_eq_rotateRight, fun _ _ => mask32_inj, Finite.injective_iff_surjective.1 fun _ _ => mask32_inj⟩

/-! ### One byte of a sequence -/

theorem le32_inj {v w : U32} (h : le32 v = le32 w) : v = w := by
  simp only [le32, List.cons.injEq, ← BitVec.toNat_inj, BitVec.extractLsb'_toNat, Nat.shiftRight_eq_div_pow] at h
  have hv := v.isLt
  have hw := w.isLt
  exact BitVec.eq_of_toNat_eq (by omega)

/-- A masked checksum tells the running value it was made from (R103, R104, R107). -/
theorem crcRun_eq_of_maskedChecksum_eq {s u : List Byte} (h : maskedChecksum s = maskedChecksum u) :
    crcRun crcInit s = crcRun crcInit u :=
  (BitVec.xor_left_inj _).1 (mask32_inj (le32_inj h))

/-- Settles O24: the running values differ after the changed byte (`crcStep_byte_inj`) and keep apart over what follows
(`crcRun_value_inj`). -/
theorem maskedChecksumSeesOneByte : Obligations.MaskedChecksumSeesOneByte := by
  intro p q b b' hne h
  have hrun := crcRun_eq_of_maskedChecksum_eq h
  simp only [crcRun_append, crcRun_cons, crcRun_nil] at hrun
  exact hne (crcStep_byte_inj (crcRun_value_inj hrun))

/-- Settles O21: the sequences are literals; the checksum is evaluated on each. -/
theorem referenceChecksums : Obligations.ReferenceChecksums := by
  unfold Obligations.ReferenceChecksums
  decide

end Sys2Proof.Machine
end

section
/-! Units and what they own (spec/10_state.md R20, spec/20_memory.md R59): a command's next state and response are
unique, a command leaves the registers of the other units as they are, and a register reads the same for as long as its
owner is not told anything. -/

namespace Sys2Proof.Machine

/-! ### One command, one next state, one response -/

section
variable {i : Instr} {s t t' : State} {r r' : Response}

/-- A command that ran was answered (R78). -/
theorem exec_response (h : exec i s = .next t) : ∃ r, t.outbox = s.outbox ++ [r] := by
  obtain ⟨p, hp, hout, -⟩ := exec_answers i s
  rw [hp, answer_eq] at h
  exact ⟨p.2, by rw [← Host.Outcome.next.inj h, emit_outbox, hout]⟩

theorem exec_unique (h : exec i s = .next t) (ho : t.outbox = s.outbox ++ [r]) (h' : exec i s = .next t')
    (ho' : t'.outbox = s.outbox ++ [r']) : t = t' ∧ r = r' := by
  obtain rfl := Host.Outcome.next.inj (h.symm.trans h')
  exact ⟨rfl, by simpa using ho.symm.trans ho'⟩

theorem exec_inbox_eq (h : exec i s = .next t) : t.inbox = s.inbox := by
  obtain ⟨p, hp, -, hin, -⟩ := exec_answers i s
  rw [hp, answer_eq] at h
  exact Host.Outcome.next.inj h ▸ hin

theorem exec_maxLen_eq (h : exec i s = .next t) : t.maxLen = s.maxLen := by
  obtain ⟨p, hp, -, -, hmax⟩ := exec_answers i s
  rw [hp, answer_eq] at h
  exact Host.Outcome.next.inj h ▸ hmax

/-- A command of another unit leaves `CE_CRC` as it is (R20). -/
theorem exec_ceCrc_of_other_unit (hi : unitOf i ≠ .ce) (h : exec i s = .next t) : t.ceCrc = s.ceCrc := by
  obtain ⟨p, hp, hout, -⟩ := exec_answers i s
  have hframe : { p.1 with ceCrc := s.ceCrc } = p.1 := exec_other_unit hi hp hout
  rw [hp, answer_eq] at h
  rw [← Host.Outcome.next.inj h, ← hframe]
  rfl

end

/-- Settles O57: what a command leaves as it is, unit by unit. -/
theorem unitsOwnTheirRegisters : Obligations.UnitsOwnTheirRegisters :=
  fun _ _ _ h => ⟨fun hi => exec_ceCrc_of_other_unit hi h, fun hi => exec_rfRegs_of_other_unit hi h,
    fun hi => exec_spRegs_of_other_unit hi h, exec_inbox_eq h, exec_maxLen_eq h⟩

/-! ### The registers of a state, unit by unit -/

/-- The registers of a state are those of its units. -/
theorem registers_eq_iff (s t : State) :
    s.registers = t.registers ↔ s.ceCrc = t.ceCrc ∧ s.rfRegs = t.rfRegs ∧ s.spRegs = t.spRegs := by
  simp [State.registers, State.rfRegs, State.spRegs, and_assoc]

@[simp] theorem registers_emit (s : State) (r : Response) : (emit s r).registers = s.registers := rfl

/-- A command whose unit's registers come out as they were has only answered. -/
theorem eq_emit_of_exec {i : Instr} {s t : State} {r : Response} (h : exec i s = .next t)
    (ho : t.outbox = s.outbox ++ [r]) (hregs : t.registers = s.registers) : t = emit s r := by
  calc t = { t.registers with inbox := t.inbox, outbox := t.outbox } := rfl
    _ = emit s r := by rw [hregs, exec_inbox_eq h, ho]; rfl

/-- What a register reads depends on the registers of its owner, and on the capacity (R191). -/
theorem regValue_congr {n : Byte} {s t : State} (hce : regOwner n = some .ce → s.ceCrc = t.ceCrc)
    (hrf : regOwner n = some .rf → s.rfRegs = t.rfRegs) (hsp : regOwner n = some .sp → s.spRegs = t.spRegs)
    (hmax : s.maxLen = t.maxLen) : regValue s n = regValue t n := by
  by_cases hn : 10 ≤ n.toNat
  · rw [regValue_unassigned hn, regValue_unassigned hn]
  obtain ⟨k, hk, rfl⟩ : ∃ k < 10, n = BitVec.ofNat 8 k := ⟨n.toNat, not_le.1 hn, by simp⟩
  interval_cases k
  · exact congrArg (fun c : U32 => some (c.setWidth 64)) (hce rfl)
  · exact congrArg (fun g : RfRegs => some (g.phase.bit.setWidth 64)) (hrf rfl)
  · exact congrArg (fun g : RfRegs => some g.len) (hrf rfl)
  · exact congrArg (fun g : RfRegs => some g.rem) (hrf rfl)
  · exact congrArg (fun g : RfRegs => some (g.crc.setWidth 64)) (hrf rfl)
  · exact congrArg (fun g : SpRegs => some (countU64 g.buf)) (hsp rfl)
  · exact congrArg (fun g : SpRegs => some g.offset) (hsp rfl)
  · exact congrArg (fun g : SpRegs =>
      some ((BitVec.ofBool g.strict).setWidth 64 ||| ((BitVec.ofBool g.eoi).setWidth 64 <<< 1))) (hsp rfl)
  · exact congrArg (fun g : SpRegs => some (g.err.setWidth 64)) (hsp rfl)
  · exact congrArg (fun m : MaxLen => some (BitVec.ofNat 64 (m.val + 16))) hmax

/-- A command whose unit does not own register `n` leaves what it reads as it is. -/
theorem regValue_of_exec {n : Byte} {i : Instr} {s t : State} (hn : regOwner n ≠ some (unitOf i))
    (h : exec i s = .next t) : regValue t n = regValue s n :=
  regValue_congr (fun hu => exec_ceCrc_of_other_unit (fun hi => hn (hi ▸ hu)) h)
    (fun hu => exec_rfRegs_of_other_unit (fun hi => hn (hi ▸ hu)) h)
    (fun hu => exec_spRegs_of_other_unit (fun hi => hn (hi ▸ hu)) h) (exec_maxLen_eq h)

/-- What `SYS.RDREG` answers for what the register reads (R190, R192). -/
def rdregResponse : Option U64 → Response
  | some v => ⟨.ok, v, [], []⟩
  | none => Response.bare .badcmd

theorem exec_sysRdreg (n : Byte) (s : State) :
    exec (.sysRdreg n) s = .next (emit s (rdregResponse (regValue s n))) := by
  cases h : regValue s n with
  | some v => exact exec_sysRdreg_assigned h
  | none => exact exec_sysRdreg_unassigned h

/-- A command does not see a response given before it (log entry 3). -/
theorem exec_emit {i : Instr} {s t : State} {r' : Response} (h : exec i s = .next t)
    (ho : t.outbox = s.outbox ++ [r']) (r : Response) :
    ∃ t', exec i (emit s r) = .next t' ∧ t'.outbox = (emit s r).outbox ++ [r'] ∧ t'.registers = t.registers := by
  by_cases hi : unitOf i = .sys
  case pos =>
    cases i with
    | sysRdreg n =>
      have hsys := exec_sysRdreg n s
      obtain ⟨rfl, rfl⟩ := exec_unique h ho hsys rfl
      exact ⟨_, exec_sysRdreg n (emit s r), rfl, rfl⟩
    | _ => simp [unitOf, opcodeOf] at hi
  obtain ⟨p, hp, hown, hlocal⟩ := exec_local i hi s (emit s r)
  have hpout : p.1.outbox = s.outbox := by rw [hown]; cases unitOf i <;> rfl
  obtain ⟨rfl, rfl⟩ := exec_unique h ho hp (by rw [emit_outbox, hpout])
  have hsame : withUnitOf (unitOf i) s (emit s r) = emit s r := by cases unitOf i <;> rfl
  refine ⟨_, hsame ▸ hlocal, ?_, ?_⟩
  · cases unitOf i <;> rfl
  · rw [registers_emit, registers_emit, hown]
    cases unitOf i <;> rfl

/-- Settles O60: the other command leaves what the register reads as it is (`regValue_of_exec`), and neither command
sees the response to the other (`exec_emit`). -/
theorem rdregCommutesWithOtherUnits : Obligations.RdregCommutesWithOtherUnits := by
  intro n i s hn
  obtain ⟨p, hp, hout, -⟩ := exec_answers i s
  have ho : (emit p.1 p.2).outbox = s.outbox ++ [p.2] := by rw [emit_outbox, hout]
  obtain ⟨t, hi, hiout, hiregs⟩ := exec_emit hp ho (rdregResponse (regValue s n))
  have hread := exec_sysRdreg n (emit p.1 p.2)
  rw [regValue_of_exec hn hp] at hread
  exact ⟨_, p.2, t, Ran.cons (exec_sysRdreg n s) rfl (Ran.cons hi hiout (Ran.nil t)), _,
    Ran.cons hp ho (Ran.cons hread rfl (Ran.nil _)), hiregs.symm⟩

/-! ### A unit's commands among those of the others -/

section
variable {u : HwUnit} {cs cs' : List Instr} {s t t' : State} {rs rs' : List Response}

/-- The commands of unit `u`, run alone from the same state, are answered as they are among the others and leave the
unit's registers as they are left among the others. -/
theorem Ran.alone (hu : u ≠ .sys) (h : Ran cs s rs t) :
    ∃ v, Ran (unitCmds u cs) s (unitResponses u (cs.zip rs)) v ∧ withUnitOf u t v = v :=
  h.project hu (withUnitOf_self u s)

/-- Two runs with the same commands of unit `u` give it the same responses and the same registers. -/
theorem Ran.unit_agrees (hu : u ≠ .sys) (h : Ran cs s rs t) (h' : Ran cs' s rs' t')
    (hcmds : unitCmds u cs = unitCmds u cs') :
    unitResponses u (cs.zip rs) = unitResponses u (cs'.zip rs') ∧
      ∃ v, withUnitOf u t v = v ∧ withUnitOf u t' v = v := by
  obtain ⟨v, hran, hv⟩ := h.alone hu
  obtain ⟨v', hran', hv'⟩ := h'.alone hu
  obtain ⟨hrs, rfl⟩ := hran.det (hcmds ▸ hran')
  exact ⟨hrs, v, hv, hv'⟩

theorem unitResponses_eq_nil (h : ∀ i ∈ cs, unitOf i ≠ u) : unitResponses u (cs.zip rs) = [] := by
  simp only [unitResponses, List.map_eq_nil_iff, List.filter_eq_nil_iff, decide_eq_true_eq]
  exact fun x hx => h x.1 (List.of_mem_zip hx).1

end

/-- Settles O59: both sequences run, and for each unit the two runs are one run of its own commands. -/
theorem unitsCommute : Obligations.UnitsCommute := by
  intro cs cs' s hcs hcs' hagree
  obtain ⟨rs, t, h, -⟩ := exists_ran cs s
  obtain ⟨rs', t', h', -⟩ := exists_ran cs' s
  obtain ⟨hce, v, hv, hv'⟩ := h.unit_agrees (u := .ce) (by decide) h' (hagree .ce)
  obtain ⟨hrf, w, hw, hw'⟩ := h.unit_agrees (u := .rf) (by decide) h' (hagree .rf)
  obtain ⟨hsp, x, hx, hx'⟩ := h.unit_agrees (u := .sp) (by decide) h' (hagree .sp)
  refine ⟨rs, rs', t, t', h, h', (registers_eq_iff t t').2 ⟨?_, ?_, ?_⟩, fun u => ?_⟩
  · exact (congrArg State.ceCrc (hv.trans hv'.symm) :)
  · exact (congrArg State.rfRegs (hw.trans hw'.symm) :)
  · exact (congrArg State.spRegs (hx.trans hx'.symm) :)
  · cases u with
    | sys => rw [unitResponses_eq_nil hcs, unitResponses_eq_nil hcs']
    | ce => exact hce
    | rf => exact hrf
    | sp => exact hsp

/-! ### Statuses -/

/-- Settles O55: the tables of R80 are evaluated; there are eleven statuses. -/
theorem statusCodesOfTheBlock : Obligations.StatusCodesOfTheBlock :=
  ⟨rfl, rfl, fun st => by cases st <;> decide⟩

end Sys2Proof.Machine
end

section
/-! Sequences of the engine's and of the framer's commands (spec/40_checksum_engine.md R113, spec/41_record_framer.md
R135, R138). `CE.SUM` and `RF.ENCODE` are run alone, by induction on their bytes, and `Ran.alone` puts the commands of
the other units back between. `RfMove` says once what an RF command does to the framer, and every sequence keeps
`WireShape`. -/

namespace Sys2Proof.Machine

/-! ### `CE.SUM` -/

theorem ran_ceUpdates (str : List Byte) (s : State) :
    ∃ rs t, Ran (str.map .ceUpdate) s rs t ∧ t.ceCrc = crcRun s.ceCrc str := by
  induction str generalizing s with
  | nil => exact ⟨[], s, Ran.nil s, rfl⟩
  | cons b str ih =>
    obtain ⟨rs, t, hran, hcrc⟩ := ih { s with
      ceCrc := crcStep s.ceCrc b, outbox := s.outbox ++ [Response.bare .ok] }
    exact ⟨_, t, Ran.cons (exec_ceUpdate b s) rfl hran, hcrc⟩

/-- `CE.SUM` from any state ends with the running value over its bytes and answers from it (R85, R113). -/
theorem ran_ceSum (str : List Byte) (s : State) :
    ∃ rs t, Ran (ceSum str) s rs t ∧ t.ceCrc = crcRun crcInit str ∧
      rs.getLast? = some (ceFinalResponse (crcRun crcInit str)) := by
  obtain ⟨rs, t, hran, hcrc⟩ := ran_ceUpdates str { s with
    ceCrc := crcInit, outbox := s.outbox ++ [Response.bare .ok] }
  have hfinal := Ran.cons (exec_ceFinal t) rfl (Ran.nil _)
  refine ⟨_, _, Ran.append (Ran.cons (exec_ceInit s) rfl hran) hfinal, hcrc, ?_⟩
  rw [List.getLast?_concat, hcrc]

/-- The response of `CE.FINAL` after a sequence is its masked checksum (R107, R112). -/
theorem ceFinalResponse_crcRun (str : List Byte) :
    ceFinalResponse (crcRun crcInit str) = ⟨.ok, (mask32 (crc32c str)).setWidth 64, maskedChecksum str, []⟩ := by
  rw [ceFinalResponse, maskedChecksum, crc32c, xor_ones_eq_not]

/-- Settles O23: the CE commands of the sequence, run alone, are `CE.SUM` (`ran_ceSum`). -/
theorem ceSumIsMaskedChecksum : Obligations.CeSumIsMaskedChecksum := by
  intro str cs s hcs
  obtain ⟨rs, t, h, -⟩ := exists_ran cs s
  obtain ⟨v, halone, hv⟩ := h.alone (u := .ce) (by decide)
  obtain ⟨rs', v', hsum, hcrc, hlast⟩ := ran_ceSum str s
  obtain ⟨hrs, rfl⟩ := (hcs ▸ halone).det hsum
  refine ⟨rs, t, h, ?_, ?_⟩
  · exact (congrArg State.ceCrc hv :).trans hcrc
  · rw [hrs, hlast, ceFinalResponse_crcRun]

/-! ### What an RF command does to the framer -/

/-- The moves of the framer with its registers: the refusal, the two ways to begin a record, and a byte that is or is
not the last (R131 to R134). -/
inductive RfMove (g : RfRegs) : RfRegs → Response → Prop
  | refused : RfMove g g (Response.bare .proto)
  | emptyRecord (h : g.phase = .idle) :
      RfMove g ⟨.idle, 0, 0, crcInit⟩ ⟨.ok, 0, recordHeader 0 ++ recordTrailer crcInit, []⟩
  | openRecord {len : U64} (h : g.phase = .idle) (hlen : len ≠ 0) :
      RfMove g ⟨.payload, len, len, crcInit⟩ ⟨.ok, len, recordHeader len, []⟩
  | lastByte (b : Byte) (h : g.phase = .payload) (hrem : g.rem ≠ 0) (hleft : g.rem - 1 = 0) :
      RfMove g ⟨.idle, g.len, 0, crcStep g.crc b⟩ ⟨.ok, 0, [b] ++ recordTrailer (crcStep g.crc b), []⟩
  | moreByte (b : Byte) (h : g.phase = .payload) (hrem : g.rem ≠ 0) (hleft : g.rem - 1 ≠ 0) :
      RfMove g ⟨.payload, g.len, g.rem - 1, crcStep g.crc b⟩ ⟨.ok, g.rem - 1, [b], []⟩

/-- Every RF command makes one of the moves. -/
theorem rfMove_of_exec {i : Instr} {s t : State} {r : Response} (hi : unitOf i = .rf) (h : exec i s = .next t)
    (ho : t.outbox = s.outbox ++ [r]) : RfMove s.rfRegs t.rfRegs r := by
  suffices hmove : ∃ t' r', exec i s = .next t' ∧ t'.outbox = s.outbox ++ [r'] ∧ RfMove s.rfRegs t'.rfRegs r' by
    obtain ⟨t', r', h', ho', hm⟩ := hmove
    obtain ⟨rfl, rfl⟩ := exec_unique h ho h' ho'
    exact hm
  cases i with
  | rfStart len =>
    cases hp : s.rfPhase with
    | payload => exact ⟨_, _, exec_rfStart_payload hp len, rfl, .refused⟩
    | idle =>
      by_cases hlen : len = 0
      · subst hlen
        exact ⟨_, _, exec_rfStart_zero hp, rfl, .emptyRecord hp⟩
      · exact ⟨_, _, exec_rfStart_ne_zero hp hlen, rfl, .openRecord hp hlen⟩
  | rfData b =>
    cases hp : s.rfPhase with
    | idle => exact ⟨_, _, exec_rfData_idle hp b, rfl, .refused⟩
    | payload =>
      by_cases hrem : s.rfRem = 0
      · exact ⟨_, _, exec_rfData_none_owed hp hrem b, rfl, .refused⟩
      · by_cases hleft : s.rfRem - 1 = 0
        · exact ⟨_, _, exec_rfData_last hp hrem hleft b, rfl, .lastByte b hp hrem hleft⟩
        · have hm := RfMove.moreByte (g := s.rfRegs) b hp hrem hleft
          exact ⟨_, _, exec_rfData_more hp hrem hleft b, rfl, hp ▸ hm⟩
  | _ => simp [unitOf, opcodeOf] at hi

/-! ### `RF.ENCODE` -/

theorem countU64_toNat {p : List Byte} (h : p.length < 2 ^ 64) : (countU64 p).toNat = p.length := by
  rw [countU64, BitVec.toNat_ofNat, Nat.mod_eq_of_lt h]

theorem countU64_eq_zero_iff {p : List Byte} (h : p.length < 2 ^ 64) : countU64 p = 0 ↔ p = [] := by
  rw [← BitVec.toNat_inj, countU64_toNat h]
  exact List.length_eq_zero_iff

theorem countU64_cons_sub_one (b : Byte) (p : List Byte) : countU64 (b :: p) - 1 = countU64 p := by
  rw [countU64, countU64, List.length_cons, BitVec.ofNat_add]
  exact BitVec.add_sub_cancel _ _

theorem recordTrailer_crcRun (p : List Byte) : recordTrailer (crcRun crcInit p) = maskedChecksum p := rfl

/-- The bytes a record still owes, given one by one, close it and bring its trailer. -/
theorem ran_rfData {p : List Byte} {s : State} (hne : p ≠ []) (hlen : p.length < 2 ^ 64) (hp : s.rfPhase = .payload)
    (hrem : s.rfRem = countU64 p) :
    ∃ rs t, Ran (p.map .rfData) s rs t ∧ t.rfPhase = .idle ∧ (∀ r ∈ rs, r.status = .ok) ∧
      rs.flatMap Response.bytes = p ++ recordTrailer (crcRun s.rfCrc p) := by
  induction p generalizing s with
  | nil => exact absurd rfl hne
  | cons b p ih =>
    have howed : s.rfRem ≠ 0 := fun hz => hne ((countU64_eq_zero_iff hlen).1 (hrem ▸ hz))
    have hleft : s.rfRem - 1 = countU64 p := by rw [hrem, countU64_cons_sub_one]
    have hlen' : p.length < 2 ^ 64 := Nat.lt_of_succ_lt hlen
    by_cases hlast : p = []
    · subst hlast
      exact ⟨_, _, Ran.cons (exec_rfData_last hp howed hleft b) rfl (Ran.nil _), rfl, by simp, by simp⟩
    · have hmore : s.rfRem - 1 ≠ 0 := fun hz => hlast ((countU64_eq_zero_iff hlen').1 (hleft ▸ hz))
      obtain ⟨rs, t, hran, hidle, hok, hbytes⟩ := ih (s := { s with
        rfRem := s.rfRem - 1, rfCrc := crcStep s.rfCrc b
        outbox := s.outbox ++ [⟨.ok, s.rfRem - 1, [b], []⟩] }) hlast hlen' hp hleft
      refine ⟨_, t, Ran.cons (exec_rfData_more hp howed hmore b) rfl hran, hidle, ?_, ?_⟩
      · simpa using hok
      · simp [hbytes]

/-- `RF.ENCODE` from IDLE puts its record on the wire (R85, R135). -/
theorem ran_rfEncode {p : List Byte} {s : State} (hlen : p.length < 2 ^ 64) (hp : s.rfPhase = .idle) :
    ∃ rs t, Ran (rfEncode p) s rs t ∧ t.rfPhase = .idle ∧ (∀ r ∈ rs, r.status = .ok) ∧
      rs.flatMap Response.bytes = encodeRecord p := by
  by_cases hz : p = []
  · subst hz
    refine ⟨_, _, Ran.cons (exec_rfStart_zero hp) rfl (Ran.nil _), rfl, by simp, ?_⟩
    simp [encodeRecord, ← recordTrailer_crcRun, countU64]
  · have hne : countU64 p ≠ 0 := fun h => hz ((countU64_eq_zero_iff hlen).1 h)
    obtain ⟨rs, t, hran, hidle, hok, hbytes⟩ := ran_rfData (s := { s with
      rfPhase := .payload, rfLen := countU64 p, rfRem := countU64 p, rfCrc := crcInit
      outbox := s.outbox ++ [⟨.ok, countU64 p, recordHeader (countU64 p), []⟩] }) hz hlen rfl rfl
    refine ⟨_, t, Ran.cons (exec_rfStart_ne_zero hp hne) rfl hran, hidle, ?_, ?_⟩
    · simpa using hok
    · simp [hbytes, encodeRecord, recordTrailer_crcRun]

theorem Ran.length_eq {cs : List Instr} {s t : State} {rs : List Response} (h : Ran cs s rs t) :
    rs.length = cs.length := by
  obtain ⟨-, -, hlen⟩ := h
  exact hlen

/-- The wire carries what the RF responses that answered OK brought (R64). -/
theorem wireOutput_eq (xs : List (Instr × Response)) :
    wireOutput xs = (unitResponses .rf xs).flatMap fun r => if r.status = .ok then r.bytes else [] := by
  induction xs with
  | nil => rfl
  | cons x xs ih =>
    by_cases hx : unitOf x.1 = .rf <;> simp_all [wireOutput, unitResponses]

theorem wireOutput_of_all_ok {xs : List (Instr × Response)} (h : ∀ r ∈ unitResponses .rf xs, r.status = .ok) :
    wireOutput xs = (unitResponses .rf xs).flatMap Response.bytes := by
  rw [wireOutput_eq]
  exact List.flatMap_congr fun r hr => if_pos (h r hr)

/-- Settles O30: the RF commands of the sequence, run alone, are `RF.ENCODE` (`ran_rfEncode`). -/
theorem rfEncodeIsEncodeRecord : Obligations.RfEncodeIsEncodeRecord := by
  intro p cs s hlen hp hcs
  obtain ⟨rs, t, h, -⟩ := exists_ran cs s
  obtain ⟨v, halone, hv⟩ := h.alone (u := .rf) (by decide)
  obtain ⟨rs', v', henc, hidle, hok, hbytes⟩ := ran_rfEncode hlen hp
  obtain ⟨rfl, rfl⟩ := (hcs ▸ halone).det henc
  exact ⟨rs, t, h, (congrArg State.rfPhase hv :).trans hidle, hok, (wireOutput_of_all_ok hok).trans hbytes⟩

/-! ### The wire of any sequence -/

/-- The wire `w` of a framer with the registers `g`: whole records, and then what was given of an unfinished one (R71,
R138). -/
def WireShape (g : RfRegs) (w : List Byte) : Prop :=
  ∃ ps : List (List Byte), (∀ p ∈ ps, p.length < 2 ^ 64) ∧
    match g.phase with
    | .idle => w = ps.flatMap encodeRecord
    | .payload => ∃ q : List Byte, w = ps.flatMap encodeRecord ++ recordHeader g.len ++ q ∧
        q.length + g.rem.toNat = g.len.toNat ∧ g.crc = crcRun crcInit q

/-- A record whose length field counts its payload. -/
theorem encodeRecord_of_length {p : List Byte} {len : U64} (h : p.length = len.toNat) :
    encodeRecord p = recordHeader len ++ p ++ recordTrailer (crcRun crcInit p) := by
  rw [encodeRecord, recordTrailer_crcRun, countU64, h, BitVec.ofNat_toNat, BitVec.setWidth_eq]

/-- A record put behind whole records. -/
theorem wireShape_idle_snoc {g : RfRegs} (hg : g.phase = .idle) {ps : List (List Byte)}
    (hps : ∀ p ∈ ps, p.length < 2 ^ 64) {p : List Byte} (hp : p.length < 2 ^ 64) :
    WireShape g (ps.flatMap encodeRecord ++ encodeRecord p) := by
  refine ⟨ps ++ [p], by simpa [or_imp, forall_and] using ⟨hps, hp⟩, ?_⟩
  simp [hg]

/-- Every move of the framer keeps the shape of the wire. -/
theorem WireShape.move {g g' : RfRegs} {r : Response} {w : List Byte} (h : WireShape g w) (hm : RfMove g g' r) :
    WireShape g' (w ++ if r.status = .ok then r.bytes else []) := by
  obtain ⟨ps, hps, hw⟩ := h
  cases hm with
  | refused => exact ⟨ps, hps, by simpa using hw⟩
  | emptyRecord hg =>
    rw [hg] at hw
    subst hw
    exact wireShape_idle_snoc rfl hps (p := []) (by simp)
  | openRecord hg hlen =>
    rw [hg] at hw
    subst hw
    exact ⟨ps, hps, [], by simp, by simp, rfl⟩
  | lastByte b hg hrem hleft =>
    rw [hg] at hw
    obtain ⟨q, rfl, hq, hcrc⟩ := hw
    have hone : g.rem = 1 := BitVec.sub_eq_iff_eq_add.1 hleft
    have hlen : (q ++ [b]).length = g.len.toNat := by rw [← hq, hone]; simp
    have hrec := encodeRecord_of_length hlen
    have hshape := wireShape_idle_snoc (g := ⟨.idle, g.len, 0, crcStep g.crc b⟩) rfl hps (hlen ▸ g.len.isLt)
    simpa [hrec, hcrc, crcRun_append] using hshape
  | moreByte b hg hrem hleft =>
    rw [hg] at hw
    obtain ⟨q, rfl, hq, hcrc⟩ := hw
    refine ⟨ps, hps, q ++ [b], by simp, ?_, ?_⟩
    · have hpos : g.rem.toNat ≠ 0 := fun hz => hrem (BitVec.eq_of_toNat_eq hz)
      rw [List.length_append, List.length_singleton]
      bv_omega
    · rw [hcrc, crcRun_append]
      rfl

theorem wireOutput_snoc (xs : List (Instr × Response)) (i : Instr) (r : Response) :
    wireOutput (xs ++ [(i, r)]) =
      wireOutput xs ++ if unitOf i = .rf ∧ r.status = .ok then r.bytes else [] := by
  simp [wireOutput]

/-- Every sequence that ran from IDLE leaves the shape (R138). -/
theorem wireShape_of_ran {s : State} (hp : s.rfPhase = .idle) (cs : List Instr) :
    ∀ {rs t}, Ran cs s rs t → WireShape t.rfRegs (wireOutput (cs.zip rs)) := by
  induction cs using List.reverseRecOn with
  | nil =>
    intro rs t h
    obtain ⟨rfl, rfl⟩ := h.det (Ran.nil s)
    refine ⟨[], by simp, ?_⟩
    simp [State.rfRegs, hp, wireOutput]
  | append_singleton cs i ih =>
    intro rs t h
    obtain ⟨u, r, rs', hran, hi, ho, rfl⟩ := h.unsnoc
    have hshape := ih hran
    rw [zip_snoc i r hran.length_eq, wireOutput_snoc]
    by_cases hrf : unitOf i = .rf
    · simpa [hrf] using hshape.move (rfMove_of_exec hrf hi ho)
    · simpa [hrf, exec_rfRegs_of_other_unit hrf hi] using hshape

/-- Settles O31: `wireShape_of_ran`. -/
theorem wireIsRecordsAndOpenRecord : Obligations.WireIsRecordsAndOpenRecord := by
  intro cs s rs t hp h
  exact wireShape_of_ran hp cs h

end Sys2Proof.Machine
end

section
/-! Frames and records (spec/30_encoding.md R70 to R74, spec/42_stream_parser.md R150, R151, R167). A frame is a byte
sequence that `frame` finds whole and fully used (`IsFrame`); it is found alike whatever bytes follow it. A record is a
frame that verifies, and a frame that verifies is a record. -/

namespace Sys2Proof.Machine

/-! ### Slices inside the buffer (R167) -/

section
variable {m l : Nat} {buf : List Byte}

theorem lengthField_length (h : 8 ≤ buf.length) : (lengthField buf).length = 8 := by
  simp [lengthField, h]

theorem lengthChecksumField_length (h : 16 + l ≤ buf.length) : (lengthChecksumField buf).length = 4 := by
  rw [lengthChecksumField, slice_length]
  omega

theorem payloadField_length (h : 16 + l ≤ buf.length) : (payloadField buf l).length = l := by
  rw [payloadField, slice_length]
  omega

theorem payloadChecksumField_length (h : 16 + l ≤ buf.length) : (payloadChecksumField buf l).length = 4 := by
  rw [payloadChecksumField, slice_length]
  omega

/-- The fields side by side are what a record of payload length `l` takes of the buffer. -/
theorem fields_append_eq_take (buf : List Byte) (l : Nat) :
    lengthField buf ++ lengthChecksumField buf ++ payloadField buf l ++ payloadChecksumField buf l =
      buf.take (16 + l) := by
  rw [lengthField, lengthChecksumField, payloadField, payloadChecksumField,
    slice_append_slice _ _ _ _ (by omega) (by omega), slice_append_slice _ _ _ _ (by omega) (by omega),
    slice_append_slice _ _ _ _ (by omega) (by omega), slice_zero]

end

/-- Settles O35: the widths of the fields, and `fields_append_eq_take`. -/
theorem bufferReadsStayInside : Obligations.BufferReadsStayInside := by
  intro m buf
  refine ⟨fun h => lengthField_length (not_lt.1 fun hlt => h ((frame_short_iff m buf).2 hlt)), fun l hf => ?_⟩
  obtain ⟨-, -, -, hlen⟩ := (frame_whole_iff m buf l).1 hf
  refine ⟨lengthChecksumField_length hlen, payloadField_length hlen, payloadChecksumField_length hlen, ?_⟩
  rw [fields_append_eq_take, List.take_append_drop]

/-! ### The source's `decode_one` and the detector (R150, R151) -/

section
variable {m l : Nat} {buf : List Byte}

theorem decodeOne_of_whole (h : frame m buf = .whole l) :
    decodeOne buf = some (payloadField buf l, 16 + l) := by
  obtain ⟨h8, rfl, -, hlen⟩ := (frame_whole_iff m buf l).1 h
  have hsum : 8 + 4 + fromLe (buf.take 8) + 4 = 16 + fromLe (buf.take 8) := by omega
  simp only [decodeOne, lengthField_eq, hsum, if_neg h8.not_gt, if_neg hlen.not_gt]

theorem decodeOne_of_short (h : frame m buf = .short) : decodeOne buf = none :=
  if_pos ((frame_short_iff m buf).1 h)

theorem decodeOne_of_incomplete (h : frame m buf = .incomplete l) : decodeOne buf = none := by
  obtain ⟨h8, rfl, -, hlen⟩ := (frame_incomplete_iff m buf l).1 h
  have hmissing : buf.length < 8 + 4 + fromLe (buf.take 8) + 4 := by omega
  simp only [decodeOne, lengthField_eq, if_neg h8.not_gt, if_pos hmissing]

end

/-- Settles O34: the condition of each case, and what `decode_one` gives in each but the oversized one. -/
theorem frameFindsBoundary : Obligations.FrameFindsBoundary := by
  intro m buf
  refine ⟨frame_short_iff m buf, frame_tooLong_iff m buf, frame_incomplete_iff m buf, frame_whole_iff m buf,
    fun hfits => ?_⟩
  cases hf : frame m buf with
  | short => exact decodeOne_of_short hf
  | incomplete l => exact decodeOne_of_incomplete hf
  | tooLong l => exact absurd hf (hfits l)
  | whole l => rw [decodeOne_of_whole hf, payloadField, slice, Nat.add_sub_cancel_left]

/-! ### Frames -/

/-- The detector finds `f` whole, with no byte left over. -/
def IsFrame (m : Nat) (f : List Byte) : Prop := frame m f = .whole (f.length - 16)

/-- The payload of a frame. -/
def framePayload (f : List Byte) : List Byte := slice f 12 (f.length - 4)

theorem isFrame_iff (m : Nat) (f : List Byte) :
    IsFrame m f ↔ 16 ≤ f.length ∧ f.length - 16 = fromLe (f.take 8) ∧ f.length - 16 ≤ m := by
  rw [IsFrame, frame_whole_iff]
  constructor
  · rintro ⟨h8, heq, hle, hlen⟩
    exact ⟨by omega, heq, hle⟩
  · rintro ⟨h16, heq, hle⟩
    exact ⟨by omega, heq, hle, by omega⟩

section
variable {m l : Nat} {f : List Byte}

theorem IsFrame.sixteen_le (h : IsFrame m f) : 16 ≤ f.length := ((isFrame_iff m f).1 h).1

/-- What follows a frame does not matter to the detector. -/
theorem IsFrame.frame_append (h : IsFrame m f) (rest : List Byte) :
    frame m (f ++ rest) = .whole (f.length - 16) := by
  obtain ⟨h16, heq, hle⟩ := (isFrame_iff m f).1 h
  refine (frame_whole_iff _ _ _).2 ⟨by simp; omega, ?_, hle, by simp; omega⟩
  rw [List.take_append_of_le_length (by omega), heq]

theorem IsFrame.payloadField_append (h : IsFrame m f) (rest : List Byte) :
    payloadField (f ++ rest) (f.length - 16) = framePayload f := by
  have h16 := h.sixteen_le
  rw [payloadField, framePayload, slice_append_left _ _ _ _ (by omega)]
  congr 1
  omega

/-- What follows a record does not matter to its verification. -/
theorem verify_append (h : 16 + l ≤ f.length) (rest : List Byte) : verify (f ++ rest) l = verify f l := by
  have hlen : lengthField (f ++ rest) = lengthField f := slice_append_left _ _ _ _ (by omega)
  have hlensum : lengthChecksumField (f ++ rest) = lengthChecksumField f := slice_append_left _ _ _ _ (by omega)
  have hpay : payloadField (f ++ rest) l = payloadField f l := slice_append_left _ _ _ _ (by omega)
  have hpaysum : payloadChecksumField (f ++ rest) l = payloadChecksumField f l := slice_append_left _ _ _ _ (by omega)
  simp only [verify, hlen, hlensum, hpay, hpaysum]

theorem IsFrame.verify_append (h : IsFrame m f) (rest : List Byte) :
    verify (f ++ rest) (f.length - 16) = verify f (f.length - 16) :=
  Machine.verify_append (by have := h.sixteen_le; omega) rest

/-- A buffer the detector finds whole begins with a frame. -/
theorem exists_isFrame_of_whole {buf : List Byte} (h : frame m buf = .whole l) :
    ∃ f rest, buf = f ++ rest ∧ IsFrame m f ∧ f.length = 16 + l := by
  obtain ⟨-, heq, hle, hlen⟩ := (frame_whole_iff m buf l).1 h
  have hf : (buf.take (16 + l)).length = 16 + l := by rw [List.length_take, Nat.min_eq_left hlen]
  refine ⟨buf.take (16 + l), buf.drop (16 + l), (List.take_append_drop _ _).symm, (isFrame_iff m _).2 ?_, hf⟩
  rw [hf, List.take_take, Nat.min_eq_left (by omega), ← heq]
  omega

end

/-! ### Records -/

theorem encodeRecord_eq (p : List Byte) : encodeRecord p =
    le64 (countU64 p) ++ maskedChecksum (le64 (countU64 p)) ++ p ++ maskedChecksum p := rfl

@[simp] theorem encodeRecord_length (p : List Byte) : (encodeRecord p).length = 16 + p.length := by
  simp [encodeRecord_eq]
  omega

/-- The middle of three parts, as a slice. -/
theorem slice_append_middle (a b c : List Byte) : slice (a ++ b ++ c) a.length (a.length + b.length) = b := by
  simp [slice]

theorem lengthField_encodeRecord (p : List Byte) : lengthField (encodeRecord p) = le64 (countU64 p) := by
  rw [encodeRecord_eq, List.append_assoc, List.append_assoc]
  exact slice_append_middle [] (le64 (countU64 p)) _

theorem lengthChecksumField_encodeRecord (p : List Byte) :
    lengthChecksumField (encodeRecord p) = maskedChecksum (le64 (countU64 p)) := by
  rw [encodeRecord_eq, List.append_assoc]
  exact slice_append_middle (le64 (countU64 p)) (maskedChecksum (le64 (countU64 p))) _

theorem payloadField_encodeRecord (p : List Byte) : payloadField (encodeRecord p) p.length = p :=
  slice_append_middle (le64 (countU64 p) ++ maskedChecksum (le64 (countU64 p))) p (maskedChecksum p)

theorem payloadChecksumField_encodeRecord (p : List Byte) :
    payloadChecksumField (encodeRecord p) p.length = maskedChecksum p := by
  have h := slice_append_middle (le64 (countU64 p) ++ maskedChecksum (le64 (countU64 p)) ++ p) (maskedChecksum p) []
  have hbefore : (le64 (countU64 p) ++ maskedChecksum (le64 (countU64 p)) ++ p).length = 12 + p.length := by
    simp only [List.length_append, le64_length, maskedChecksum_length]
  have hend : 12 + p.length + 4 = 16 + p.length := by omega
  rwa [List.append_nil, ← encodeRecord_eq, hbefore, maskedChecksum_length, hend] at h

/-- A record passes both checksum tests (R158). -/
theorem verify_encodeRecord (p : List Byte) : verify (encodeRecord p) p.length = .good := by
  simp [verify, lengthField_encodeRecord, lengthChecksumField_encodeRecord, payloadField_encodeRecord,
    payloadChecksumField_encodeRecord]

theorem encodeRecord_length_sub (p : List Byte) : (encodeRecord p).length - 16 = p.length := by simp

theorem framePayload_encodeRecord (p : List Byte) : framePayload (encodeRecord p) = p := by
  have h := payloadField_encodeRecord p
  rwa [payloadField, show 12 + p.length = (encodeRecord p).length - 4 by simp; omega] at h

/-- A record whose payload fits is a frame. -/
theorem isFrame_encodeRecord {m : Nat} {p : List Byte} (h : p.length ≤ m) (hm : m < 2 ^ 64) :
    IsFrame m (encodeRecord p) := by
  refine (isFrame_iff m _).2 ⟨by simp, ?_, by simpa using h⟩
  rw [← lengthField_eq, lengthField_encodeRecord, fromLe_le64, countU64_toNat (by omega), encodeRecord_length_sub]

/-- A frame that passes both checksum tests is the record of its payload (R74). -/
theorem IsFrame.eq_encodeRecord {m : Nat} {f : List Byte} (h : IsFrame m f)
    (hv : verify f (f.length - 16) = .good) : encodeRecord (framePayload f) = f := by
  obtain ⟨h16, heq, -⟩ := (isFrame_iff m f).1 h
  have hpayload : payloadField f (f.length - 16) = framePayload f := by simpa using h.payloadField_append []
  have hlen : (framePayload f).length = f.length - 16 := by
    rw [← hpayload, payloadField_length (by omega)]
  have hcount : le64 (countU64 (framePayload f)) = lengthField f := by
    rw [countU64, hlen, heq, ← lengthField_eq, le64_fromLe _ (lengthField_length (by omega))]
  unfold verify at hv
  split_ifs at hv with hbadLen hbadPay
  rw [not_not] at hbadLen hbadPay
  rw [encodeRecord_eq, hcount, ← hbadLen, ← hpayload, ← hbadPay, fields_append_eq_take,
    List.take_of_length_le (by omega)]

end Sys2Proof.Machine
end

section
/-! One `SP.DECODEALL` (spec/42_stream_parser.md R159, R166, R172, spec/60_exceptions.md R209). `decodeAll_drains` says
what it does on an unfaulted parser: it takes off a run of frames (records, in strict mode) and stops with the status
`StopStatus` gives for what is left. -/

namespace Sys2Proof.Machine

/-! ### Where a decode stops -/

/-- The status a decode that does not deliver answers when `left` is buffered (R209). -/
def StopStatus (s : State) (left : List Byte) (st : Status) : Prop :=
  match frame s.maxLen.val left with
  | .tooLong _ => st = .sizeovf
  | .whole l => s.spStrict = true ∧
      ((verify left l = .badLen ∧ st = .cklen) ∨ (verify left l = .badPay ∧ st = .ckpay))
  | .short => st = if s.spEoi then if left = [] then .eof else .trunc else .noRecord
  | .incomplete _ => st = if s.spEoi then if left = [] then .eof else .trunc else .noRecord

/-- What a status leaves in `SP_ERR` (R206). -/
def latched (st : Status) : BitVec 4 := if st.kind = .failure then st.code else 0

section
variable {s : State} {left : List Byte} {st : Status}

theorem stopStatus_of_lacking
    (hf : frame s.maxLen.val left = .short ∨ ∃ l, frame s.maxLen.val left = .incomplete l) :
    StopStatus s left st ↔ st = if s.spEoi then if left = [] then .eof else .trunc else .noRecord := by
  obtain hf | ⟨l, hf⟩ := hf <;> simp only [StopStatus, hf]

/-- The statuses a decode can stop with are neither OK nor a refusal. -/
theorem StopStatus.mem (h : StopStatus s left st) :
    st ∈ ([.noRecord, .eof, .trunc, .cklen, .ckpay, .sizeovf] : List Status) := by
  have hlacking : (if s.spEoi then if left = [] then .eof else .trunc else .noRecord) ∈
      ([.noRecord, .eof, .trunc, .cklen, .ckpay, .sizeovf] : List Status) := by
    split_ifs <;> decide
  cases hf : frame s.maxLen.val left with
  | short => exact (stopStatus_of_lacking (.inl hf)).1 h ▸ hlacking
  | incomplete l => exact (stopStatus_of_lacking (.inr ⟨l, hf⟩)).1 h ▸ hlacking
  | tooLong l =>
    simp only [StopStatus, hf] at h
    simp [h]
  | whole l =>
    simp only [StopStatus, hf] at h
    obtain ⟨-, ⟨-, h⟩ | ⟨-, h⟩⟩ := h <;> simp [h]

theorem StopStatus.kind_ne_refused (h : StopStatus s left st) : st.kind ≠ .refused := by
  have hall : ∀ st ∈ ([.noRecord, .eof, .trunc, .cklen, .ckpay, .sizeovf] : List Status), st.kind ≠ .refused := by
    decide
  exact hall st h.mem

end

/-- The state after a decode run that took off `frames`, left `left` and stopped with `st`. -/
def drainedState (s : State) (frames : List (List Byte)) (left : List Byte) (st : Status) : State :=
  { s with spBuf := left, spOffset := s.spOffset + BitVec.ofNat 64 frames.flatten.length, spErr := latched st }

/-- The response of a decode run that took off `frames` and answers `st`. -/
def drainedResponse (frames : List (List Byte)) (st : Status) : Response :=
  ⟨st, BitVec.ofNat 64 frames.flatten.length, [], frames.map framePayload⟩

/-- A decode that does not answer OK changes at most the fault register. -/
theorem decode1_stops {s : State} (h : s.spErr = 0) (hno : (decode1 s).2.status ≠ .ok) :
    ∃ st, StopStatus s s.spBuf st ∧ decode1 s = (drainedState s [] s.spBuf st, drainedResponse [] st) := by
  have hkept : ∀ st : Status, st.kind ≠ .failure → drainedState s [] s.spBuf st = s := by
    intro st hst
    simp [drainedState, latched, hst, ← h]
  have hfault : ∀ st : Status, st.kind = .failure →
      raiseFault st s = (drainedState s [] s.spBuf st, drainedResponse [] st) := by
    intro st hst
    simp [drainedState, drainedResponse, latched, hst, raiseFault, Response.bare]
  obtain ⟨herr, -⟩ | ⟨-, ⟨l, hf, hd⟩ | ⟨hf, hd⟩ | ⟨l, hf, hs, ⟨hv, hd⟩ | ⟨hv, hd⟩⟩ | ⟨l, -, -, hd⟩⟩ :=
    decode1_cases s
  · exact absurd h herr
  · exact ⟨.sizeovf, by simp [StopStatus, hf], hd.trans (hfault _ rfl)⟩
  · obtain ⟨he, hl⟩ | ⟨he, hb, hl⟩ | ⟨he, hb, hl⟩ := lacking_cases s
    · refine ⟨.noRecord, (stopStatus_of_lacking hf).2 (by simp [he]), hd.trans (hl.trans ?_)⟩
      rw [hkept _ (by decide)]
      rfl
    · refine ⟨.eof, (stopStatus_of_lacking hf).2 (by simp [he, hb]), hd.trans (hl.trans ?_)⟩
      rw [hkept _ (by decide)]
      rfl
    · exact ⟨.trunc, (stopStatus_of_lacking hf).2 (by simp [he, hb]), hd.trans (hl.trans (hfault _ rfl))⟩
  · exact ⟨.cklen, by simp [StopStatus, hf, hs, hv], hd.trans (hfault _ rfl)⟩
  · exact ⟨.ckpay, by simp [StopStatus, hf, hs, hv], hd.trans (hfault _ rfl)⟩
  · exact absurd (congrArg (fun p => p.2.status) hd) hno

/-! ### A run of decodes -/

/-- `frames` can be taken off the buffer of `s`, and leave `left`. -/
structure TakesOff (s : State) (frames : List (List Byte)) (left : List Byte) : Prop where
  buffer : s.spBuf = frames.flatten ++ left
  isFrame : ∀ f ∈ frames, IsFrame s.maxLen.val f
  verified : s.spStrict = true → ∀ f ∈ frames, verify f (f.length - 16) = .good

theorem TakesOff.nil (s : State) : TakesOff s [] s.spBuf := ⟨rfl, by simp, by simp⟩

/-- A decode that answers OK takes one frame off. -/
theorem decode1_takes_frame {s : State} (hok : (decode1 s).2.status = .ok) :
    s.spErr = 0 ∧ ∃ f left, TakesOff s [f] left ∧
      decode1 s = (drainedState s [f] left .ok, drainedResponse [f] .ok) := by
  obtain ⟨herr, l, hf, hv, hd⟩ := decode1_ok hok
  obtain ⟨f, left, hbuf, hframe, hlen⟩ := exists_isFrame_of_whole hf
  obtain rfl : l = f.length - 16 := by omega
  refine ⟨herr, f, left, ⟨by simpa using hbuf, by simpa using hframe, fun hs g hg => ?_⟩, ?_⟩
  · obtain rfl := List.mem_singleton.1 hg
    rw [← hframe.verify_append left, ← hbuf]
    exact hv hs
  · have hpayload := hframe.payloadField_append left
    rw [← hbuf] at hpayload
    have hdrop : s.spBuf.drop (16 + (f.length - 16)) = left := by
      rw [hbuf, ← hlen]
      exact List.drop_left
    rw [hd, deliver, consume, hdrop, hpayload, ← hlen]
    simp [drainedState, drainedResponse, latched, Status.kind, herr, Response.bare]

/-- One run of `SP.DECODEALL` on an unfaulted parser (R159, R209). -/
theorem decodeAll_drains (s : State) : s.spErr = 0 → ∃ frames left st,
    TakesOff s frames left ∧ StopStatus s left st ∧
      decodeAll s = (drainedState s frames left st, drainedResponse frames st) := by
  induction s using decodeAll_induction with
  | stop s h =>
    intro herr
    obtain ⟨st, hstop, hd⟩ := decode1_stops herr h
    refine ⟨[], s.spBuf, st, .nil s, hstop, ?_⟩
    rw [decodeAll_stop h, hd]
    rfl
  | turn s h ih =>
    rintro -
    obtain ⟨-, f, rest, hone, hd⟩ := decode1_takes_frame h
    rw [hd] at ih
    obtain ⟨frames, left, st, htake, hstop, hall⟩ := ih rfl
    refine ⟨f :: frames, left, st, ⟨?_, ?_, fun hs => ?_⟩, hstop, ?_⟩
    · rw [hone.buffer, show rest = _ from htake.buffer]
      simp
    · exact List.forall_mem_cons.2 ⟨hone.isFrame f (by simp), htake.isFrame⟩
    · exact List.forall_mem_cons.2 ⟨hone.verified hs f (by simp), htake.verified hs⟩
    · rw [decodeAll_turn h, hd, hall]
      simp [prependResponse, drainedState, drainedResponse, BitVec.add_assoc, BitVec.ofNat_add]

/-- Settles O41: `decodeAll_drains`. -/
theorem spDecodeallDrainsBuffer : Obligations.SpDecodeallDrainsBuffer := by
  intro s h
  obtain ⟨frames, left, st, htake, hstop, hall⟩ := decodeAll_drains s h
  refine ⟨left, st, frames, htake.buffer,
    fun f hf => ⟨htake.isFrame f hf, fun hs => htake.verified hs f hf⟩, ?_, hstop⟩
  rw [exec_spDecodeall, hall]
  rfl

/-! ### Strict mode (R74, R204) -/

/-- In strict mode the frames taken off are the records of their payloads. -/
theorem TakesOff.flatMap_encodeRecord {s : State} {frames : List (List Byte)} {left : List Byte}
    (h : TakesOff s frames left) (hs : s.spStrict = true) :
    (frames.map framePayload).flatMap encodeRecord = frames.flatten := by
  have hrec : ∀ f ∈ frames, encodeRecord (framePayload f) = f := fun f hf =>
    (h.isFrame f hf).eq_encodeRecord (h.verified hs f hf)
  rw [List.flatMap_map, List.flatMap_def, List.map_congr_left hrec, List.map_id']

/-- Settles O42: the frames `decodeAll_drains` finds are records (`TakesOff.flatMap_encodeRecord`). -/
theorem strictDecodeIsSound : Obligations.StrictDecodeIsSound := by
  intro s h hs
  obtain ⟨frames, left, st, htake, -, hall⟩ := decodeAll_drains s h
  refine ⟨_, _, exec_spDecodeall s, ?_⟩
  rw [hall]
  exact htake.buffer.trans (congrArg (· ++ left) (htake.flatMap_encodeRecord hs).symm)

/-! ### The source's `decode_all` (R172) -/

section
variable {buf payload : List Byte} {consumed : Nat}

/-- Taking a record off shortens the buffer. -/
theorem decodeOne_some_shorter (h : decodeOne buf = some (payload, consumed)) :
    (buf.drop consumed).length < buf.length := by
  simp only [decodeOne] at h
  split_ifs at h
  simp only [Option.some.injEq, Prod.mk.injEq] at h
  obtain ⟨-, rfl⟩ := h
  rw [List.length_drop]
  omega

theorem decodeManyUpTo_none (h : decodeOne buf = none) (fuel : Nat) : decodeManyUpTo fuel buf = [] := by
  cases fuel with
  | zero => rfl
  | succ n => simp only [decodeManyUpTo, h]

theorem decodeManyUpTo_some (h : decodeOne buf = some (payload, consumed)) (fuel : Nat) :
    decodeManyUpTo (fuel + 1) buf = payload :: decodeManyUpTo fuel (buf.drop consumed) := by
  simp only [decodeManyUpTo, h]

/-- Fuel beyond the length of the buffer changes nothing. -/
theorem decodeManyUpTo_fuel {fuel fuel' : Nat} (h : buf.length ≤ fuel) (h' : buf.length ≤ fuel') :
    decodeManyUpTo fuel buf = decodeManyUpTo fuel' buf := by
  induction fuel generalizing fuel' buf with
  | zero =>
    obtain rfl := List.eq_nil_of_length_eq_zero (Nat.le_zero.1 h)
    rw [decodeManyUpTo_none rfl, decodeManyUpTo_none rfl]
  | succ n ih =>
    cases hd : decodeOne buf with
    | none => rw [decodeManyUpTo_none hd, decodeManyUpTo_none hd]
    | some x =>
      obtain ⟨payload, consumed⟩ := x
      have hshort := decodeOne_some_shorter hd
      obtain ⟨n', rfl⟩ : ∃ n', fuel' = n' + 1 := ⟨fuel' - 1, by omega⟩
      rw [decodeManyUpTo_some hd, decodeManyUpTo_some hd, ih (fuel' := n') (by omega) (by omega)]

theorem decodeMany_none (h : decodeOne buf = none) : decodeMany buf = [] := decodeManyUpTo_none h _

theorem decodeMany_some (h : decodeOne buf = some (payload, consumed)) :
    decodeMany buf = payload :: decodeMany (buf.drop consumed) := by
  have hshort := decodeOne_some_shorter h
  obtain ⟨n, hn⟩ : ∃ n, buf.length = n + 1 := ⟨buf.length - 1, by omega⟩
  rw [decodeMany, decodeMany, hn, decodeManyUpTo_some h, decodeManyUpTo_fuel (by omega) le_rfl]

end

/-- The source takes a frame off as the parser does. -/
theorem IsFrame.decodeOne_append {m : Nat} {f : List Byte} (h : IsFrame m f) (rest : List Byte) :
    decodeOne (f ++ rest) = some (framePayload f, f.length) := by
  have hlen : 16 + (f.length - 16) = f.length := Nat.add_sub_cancel' h.sixteen_le
  rw [decodeOne_of_whole (h.frame_append rest), h.payloadField_append, hlen]

/-- `decode_all` of a run of frames comes to what follows them, with their payloads. -/
theorem decodeMany_frames_append {m : Nat} {frames : List (List Byte)} (h : ∀ f ∈ frames, IsFrame m f)
    (left : List Byte) :
    decodeMany (frames.flatten ++ left) = frames.map framePayload ++ decodeMany left := by
  induction frames with
  | nil => rfl
  | cons f frames ih =>
    obtain ⟨hf, hrest⟩ := List.forall_mem_cons.1 h
    rw [List.flatten_cons, List.append_assoc, decodeMany_some (hf.decodeOne_append _), List.drop_left, ih hrest]
    rfl

theorem reached_frames_append {m : Nat} {frames : List (List Byte)} (h : ∀ f ∈ frames, IsFrame m f)
    {buf left : List Byte} (hreach : Reached buf (frames.flatten ++ left)) : Reached buf left := by
  induction frames with
  | nil => exact hreach
  | cons f frames ih =>
    obtain ⟨hf, hrest⟩ := List.forall_mem_cons.1 h
    rw [List.flatten_cons, List.append_assoc] at hreach
    have hnext := hreach.next (hf.decodeOne_append _)
    rw [List.drop_left] at hnext
    exact ih hrest hnext

/-- Settles O43: `decode_all` takes off the frames `decodeAll_drains` finds; what is left is reached, so it is not
oversized, and in permissive mode without end of input the run can only have stopped for want of bytes. -/
theorem spDecodeallIsDecodeAll : Obligations.SpDecodeallIsDecodeAll := by
  refine ⟨fun buf => ?_, fun s h heoi hs hfits => ?_⟩
  · cases hd : decodeOne buf with
    | none => exact decodeMany_none hd
    | some x => exact decodeMany_some hd
  · obtain ⟨frames, left, st, htake, hstop, hall⟩ := decodeAll_drains s h
    have hreach : Reached s.spBuf left := reached_frames_append htake.isFrame (htake.buffer ▸ .start)
    have hlack : decodeOne left = none ∧ st = .noRecord := by
      simp only [StopStatus, heoi, hs, Bool.false_eq_true, if_false, false_and] at hstop
      cases hf : frame s.maxLen.val left with
      | short => exact ⟨decodeOne_of_short hf, by simpa only [hf] using hstop⟩
      | incomplete l => exact ⟨decodeOne_of_incomplete hf, by simpa only [hf] using hstop⟩
      | tooLong l => exact absurd hf (hfits left hreach l)
      | whole l => simp only [hf] at hstop
    obtain ⟨hnone, rfl⟩ := hlack
    refine ⟨_, _, exec_spDecodeall s, ?_⟩
    rw [hall]
    refine ⟨rfl, ?_⟩
    rw [htake.buffer, decodeMany_frames_append htake.isFrame, decodeMany_none hnone, List.append_nil]
    rfl

/-! ### A full buffer (R168) -/

/-- A parser that lacks bytes has room for them: `MAX_LEN` is the capacity less the 16 bytes around a payload. -/
theorem LacksBytes.room {s : State} (h : LacksBytes s) : s.spBuf.length < s.bufCap := by
  rw [bufCap_eq]
  obtain hf | ⟨l, hf⟩ := h
  · have := (frame_short_iff _ _).1 hf
    omega
  · obtain ⟨-, -, hle, hlt⟩ := (frame_incomplete_iff _ _ _).1 hf
    omega

/-- Settles O45: a full buffer does not lack bytes, so a decode of it faults or delivers. -/
theorem fullBufferNeverWaits : Obligations.FullBufferNeverWaits := by
  intro s h hfull
  refine ⟨_, _, exec_spDecode1 s, ?_⟩
  have hfault : ∀ {st : Status}, decode1 s = raiseFault st s → st.code ≠ 0 → (decode1 s).1.spErr ≠ 0 :=
    fun hd hcode => hd ▸ hcode
  obtain ⟨herr, -⟩ | ⟨-, ⟨l, -, hd⟩ | ⟨hlack, -⟩ | ⟨l, -, -, ⟨-, hd⟩ | ⟨-, hd⟩⟩ | ⟨l, -, -, hd⟩⟩ :=
    decode1_cases s
  · exact absurd h herr
  · exact .inr (hfault hd (by decide))
  · exact absurd hfull (LacksBytes.room hlack).ne
  · exact .inr (hfault hd (by decide))
  · exact .inr (hfault hd (by decide))
  · have hok : (decode1 s).2.status = .ok := by rw [hd]; rfl
    have hshort := decode1_ok_shorter hok
    exact .inl ⟨hok, Nat.lt_of_lt_of_eq (by omega) hfull⟩

end Sys2Proof.Machine
end

section
/-! What any command does to the parser (spec/42_stream_parser.md part 3, spec/60_exceptions.md): `SpMove` says it once.
From it, from `RfMove` and from `step_cases`: the invariant of R40, the frame of the buffer (R52), that a refusal
changes nothing (R200), that a fault is latched until `SP.CLEAR` or reset (R207, R208), and that the stream is conserved
(R64). -/

namespace Sys2Proof.Machine

/-! ### The moves of the parser -/

/-- What each SP command can do to the parser's registers, and what it then answers. -/
inductive SpMove : Instr → SpRegs → SpRegs → Response → Prop
  | refused {i : Instr} (g : SpRegs) {st : Status} (hc : i ≠ .spClear) (hk : st.kind = .refused) :
      SpMove i g g (Response.bare st)
  | pushed (b : Byte) (g : SpRegs) (v : U64) (hroom : g.buf.length < g.maxLen.val + 16) :
      SpMove (.spPush b) g { g with buf := g.buf ++ [b] } ⟨.ok, v, [], []⟩
  | drained {i : Instr} {g : SpRegs} {frames : List (List Byte)} {left : List Byte} {st : Status}
      (hi : i = .spDecode1 ∨ i = .spDecodeall) (hbuf : g.buf = frames.flatten ++ left)
      (hframes : ∀ f ∈ frames, IsFrame g.maxLen.val f) (hk : st.kind ≠ .refused) :
      SpMove i g
        { g with buf := left, offset := g.offset + BitVec.ofNat 64 frames.flatten.length, err := latched st }
        (drainedResponse frames st)
  | verified (g : SpRegs) {r : Response} (hk : r.status.kind ≠ .refused) (hrec : r.records = []) :
      SpMove .spVerify g g r
  | ended (g : SpRegs) : SpMove .spEnd g { g with eoi := true } (Response.bare .ok)
  | cleared (g : SpRegs) :
      SpMove .spClear g { g with buf := [], offset := 0, eoi := false, err := 0 } (Response.bare .ok)
  | modeSet (b : Bool) (g : SpRegs) : SpMove (.spSetmode b) g { g with strict := b } (Response.bare .ok)

section
variable {s : State}

/-- One decode on an unfaulted parser. -/
theorem spMove_decode1 (h : s.spErr = 0) : SpMove .spDecode1 s.spRegs (decode1 s).1.spRegs (decode1 s).2 := by
  by_cases hok : (decode1 s).2.status = .ok
  · obtain ⟨-, f, left, htake, hd⟩ := decode1_takes_frame hok
    rw [hd]
    exact .drained (g := s.spRegs) (st := .ok) (.inl rfl) htake.buffer htake.isFrame (by decide)
  · obtain ⟨st, hstop, hd⟩ := decode1_stops h hok
    rw [hd]
    exact .drained (.inl rfl) (TakesOff.nil s).buffer (TakesOff.nil s).isFrame hstop.kind_ne_refused

/-- One run of decodes on an unfaulted parser. -/
theorem spMove_decodeAll (h : s.spErr = 0) : SpMove .spDecodeall s.spRegs (decodeAll s).1.spRegs (decodeAll s).2 := by
  obtain ⟨frames, left, st, htake, hstop, hd⟩ := decodeAll_drains s h
  rw [hd]
  exact .drained (.inr rfl) htake.buffer htake.isFrame hstop.kind_ne_refused

/-- `SP.VERIFY` on an unfaulted parser reports, and delivers nothing (R160). -/
theorem exec_spVerify_ready (h : s.spErr = 0) :
    ∃ r, exec .spVerify s = .next (emit s r) ∧ r.status.kind ≠ .refused ∧ r.records = [] := by
  cases hf : frame s.maxLen.val s.spBuf with
  | short => exact ⟨_, exec_spVerify_lacking h (.inl hf), by decide, rfl⟩
  | incomplete l => exact ⟨_, exec_spVerify_lacking h (.inr ⟨l, hf⟩), by decide, rfl⟩
  | tooLong l => exact ⟨_, exec_spVerify_tooLong h hf, by decide, rfl⟩
  | whole l =>
    refine ⟨_, exec_spVerify_whole h hf, ?_, ?_⟩
    · cases verify s.spBuf l <;> simp [verdictResponse, Status.kind]
    · cases verify s.spBuf l <;> rfl

/-- Every SP command makes one of the moves. -/
theorem spMove_of_exec {i : Instr} {t : State} {r : Response} (hi : unitOf i = .sp) (h : exec i s = .next t)
    (ho : t.outbox = s.outbox ++ [r]) : SpMove i s.spRegs t.spRegs r := by
  suffices hmove : ∃ t' r', exec i s = .next t' ∧ t'.outbox = s.outbox ++ [r'] ∧
      SpMove i s.spRegs t'.spRegs r' by
    obtain ⟨t', r', h', ho', hm⟩ := hmove
    obtain ⟨rfl, rfl⟩ := exec_unique h ho h' ho'
    exact hm
  by_cases hc : i = .spClear
  · subst hc
    exact ⟨_, _, rfl, rfl, .cleared s.spRegs⟩
  by_cases herr : s.spErr = 0
  case neg => exact ⟨_, _, exec_sp_faulted hi hc herr, rfl, .refused s.spRegs hc rfl⟩
  cases i with
  | spClear => exact absurd rfl hc
  | spPush b =>
    cases heoi : s.spEoi with
    | true => exact ⟨_, _, exec_spPush_after_end herr heoi b, rfl, .refused s.spRegs hc rfl⟩
    | false =>
      by_cases hroom : s.spBuf.length < s.bufCap
      · exact ⟨_, _, exec_spPush_accepted herr heoi hroom b, rfl, .pushed b s.spRegs _ hroom⟩
      · exact ⟨_, _, exec_spPush_full herr heoi (not_lt.1 hroom) b, rfl, .refused s.spRegs hc rfl⟩
  | spDecode1 => exact ⟨_, _, exec_spDecode1 s, rfl, spMove_decode1 herr⟩
  | spDecodeall => exact ⟨_, _, exec_spDecodeall s, rfl, spMove_decodeAll herr⟩
  | spVerify =>
    obtain ⟨r', h', hk, hrec⟩ := exec_spVerify_ready herr
    exact ⟨_, r', h', rfl, .verified s.spRegs hk hrec⟩
  | spEnd => exact ⟨_, _, exec_spEnd_ready herr, rfl, .ended s.spRegs⟩
  | spSetmode b => exact ⟨_, _, exec_spSetmode_ready herr b, rfl, .modeSet b s.spRegs⟩
  | _ => simp [unitOf, opcodeOf] at hi

end

/-! ### The invariant (R40) -/

/-- The framer's part of the invariant. -/
def RfRegs.Ok (g : RfRegs) : Prop := (g.phase = .payload ↔ g.rem ≠ 0) ∧ g.rem ≤ g.len

/-- The parser's part of the invariant. -/
def SpRegs.Ok (g : SpRegs) : Prop :=
  g.buf.length ≤ g.maxLen.val + 16 ∧ (g.err = 0 ∨ g.err = 0x8 ∨ g.err = 0x9 ∨ g.err = 0xA ∨ g.err = 0xB)

theorem inv_iff (s : State) : s.Inv ↔ s.rfRegs.Ok ∧ s.spRegs.Ok := by
  simp only [State.Inv, RfRegs.Ok, SpRegs.Ok, State.rfRegs, State.spRegs, State.bufCap, and_assoc]

theorem RfMove.ok {g g' : RfRegs} {r : Response} (hm : RfMove g g' r) (h : g.Ok) : g'.Ok := by
  obtain ⟨hphase, hle⟩ := h
  cases hm with
  | refused => exact ⟨hphase, hle⟩
  | emptyRecord _ => simp [RfRegs.Ok]
  | openRecord _ hlen => simpa [RfRegs.Ok] using hlen
  | lastByte b _ _ _ => exact ⟨by simp, BitVec.le_def.2 (Nat.zero_le _)⟩
  | moreByte b _ hrem hleft =>
    refine ⟨by simpa using hleft, ?_⟩
    have hpos : g.rem.toNat ≠ 0 := fun hz => hrem (BitVec.eq_of_toNat_eq hz)
    simp only [BitVec.le_def] at hle ⊢
    bv_omega

theorem latched_cases (st : Status) :
    latched st = 0 ∨ latched st = 0x8 ∨ latched st = 0x9 ∨ latched st = 0xA ∨ latched st = 0xB := by
  cases st <;> decide

theorem SpMove.ok {i : Instr} {g g' : SpRegs} {r : Response} (hm : SpMove i g g' r) (h : g.Ok) : g'.Ok := by
  obtain ⟨hlen, herr⟩ := h
  cases hm with
  | refused => exact ⟨hlen, herr⟩
  | pushed b _ v hroom =>
    refine ⟨?_, herr⟩
    rw [List.length_append]
    exact hroom
  | drained _ hbuf _ _ =>
    refine ⟨?_, latched_cases _⟩
    rw [hbuf, List.length_append] at hlen
    exact (Nat.le_add_left _ _).trans hlen
  | verified => exact ⟨hlen, herr⟩
  | ended => exact ⟨hlen, herr⟩
  | cleared => simp [SpRegs.Ok]
  | modeSet => exact ⟨hlen, herr⟩

theorem exec_keeps_inv {i : Instr} {s t : State} (hinv : s.Inv) (h : exec i s = .next t) : t.Inv := by
  obtain ⟨hrf, hsp⟩ := (inv_iff s).1 hinv
  obtain ⟨r, ho⟩ := exec_response h
  refine (inv_iff t).2 ⟨?_, ?_⟩
  · by_cases hi : unitOf i = .rf
    · exact (rfMove_of_exec hi h ho).ok hrf
    · rwa [exec_rfRegs_of_other_unit hi h]
  · by_cases hi : unitOf i = .sp
    · exact (spMove_of_exec hi h ho).ok hsp
    · rwa [exec_spRegs_of_other_unit hi h]

/-- Settles O11: a step does nothing, resets, refuses, or runs a command (`exec_keeps_inv`). -/
theorem stepKeepsInvariant : Obligations.StepKeepsInvariant := by
  intro s t hinv h
  obtain ⟨-, hs⟩ | ⟨rest, -, hs⟩ | ⟨w, rest, i, -, -, hs⟩ | ⟨rest, hs⟩ := step_cases s
  · obtain rfl := Host.Outcome.next.inj (h.symm.trans hs)
    exact ⟨hinv, rfl⟩
  · obtain rfl := Host.Outcome.next.inj (h.symm.trans hs)
    exact ⟨by simp [State.Inv], rfl⟩
  · rw [hs] at h
    exact ⟨exec_keeps_inv (s := takeEvent rest s) hinv h, exec_maxLen_eq (s := takeEvent rest s) h⟩
  · obtain rfl := Host.Outcome.next.inj (h.symm.trans hs)
    exact ⟨hinv, rfl⟩

/-! ### Refusals and faults -/

theorem RfMove.of_refused {g g' : RfRegs} {r : Response} (hm : RfMove g g' r) (hk : r.status.kind = .refused) :
    g' = g ∧ r = Response.bare r.status := by
  cases hm with
  | refused => exact ⟨rfl, rfl⟩
  | _ => simp [Status.kind] at hk

theorem SpMove.of_refused {i : Instr} {g g' : SpRegs} {r : Response} (hm : SpMove i g g' r)
    (hk : r.status.kind = .refused) : g' = g ∧ r = Response.bare r.status := by
  cases hm with
  | refused => exact ⟨rfl, rfl⟩
  | drained _ _ _ hne => exact absurd hk hne
  | verified _ hne _ => exact absurd hk hne
  | _ => simp [Status.kind] at hk

/-- A refused command changes no register of its unit, and its response is bare (R200, R211). -/
theorem exec_refused {i : Instr} {s t : State} {r : Response} (h : exec i s = .next t)
    (ho : t.outbox = s.outbox ++ [r]) (hk : r.status.kind = .refused) :
    t.registers = s.registers ∧ r = Response.bare r.status := by
  cases hu : unitOf i with
  | sys =>
    cases i with
    | sysRdreg n =>
      obtain ⟨rfl, rfl⟩ := exec_unique h ho (exec_sysRdreg n s) rfl
      cases hreg : regValue s n with
      | none => exact ⟨rfl, rfl⟩
      | some v => simp [hreg, rdregResponse, Status.kind] at hk
    | _ => simp [unitOf, opcodeOf] at hu
  | ce =>
    obtain ⟨c, r', hok, hce⟩ := exec_ce_eq hu s.ceCrc
    obtain ⟨-, rfl⟩ := exec_unique h ho (hce s rfl) rfl
    simp [hok, Status.kind] at hk
  | rf =>
    obtain ⟨hregs, hr⟩ := (rfMove_of_exec hu h ho).of_refused hk
    exact ⟨(registers_eq_iff t s).2 ⟨exec_ceCrc_of_other_unit (by simp [hu]) h, hregs,
      exec_spRegs_of_other_unit (by simp [hu]) h⟩, hr⟩
  | sp =>
    obtain ⟨hregs, hr⟩ := (spMove_of_exec hu h ho).of_refused hk
    exact ⟨(registers_eq_iff t s).2 ⟨exec_ceCrc_of_other_unit (by simp [hu]) h,
      exec_rfRegs_of_other_unit (by simp [hu]) h, hregs⟩, hr⟩

/-- Settles O56: `exec_refused`. -/
theorem refusedCommandsChangeNothing : Obligations.RefusedCommandsChangeNothing := by
  intro i s t r h ho hk
  obtain ⟨hregs, hr⟩ := exec_refused h ho hk
  calc t = emit s r := eq_emit_of_exec h ho hregs
    _ = emit s (Response.bare r.status) := congrArg (emit s) hr

/-- A faulted parser keeps its registers through every command but `SP.CLEAR` (R207). -/
theorem exec_spRegs_of_faulted {i : Instr} {s t : State} (hf : s.spErr ≠ 0) (hc : i ≠ .spClear)
    (h : exec i s = .next t) : t.spRegs = s.spRegs := by
  by_cases hi : unitOf i = .sp
  · obtain rfl := Host.Outcome.next.inj (h.symm.trans (exec_sp_faulted hi hc hf))
    rfl
  · exact exec_spRegs_of_other_unit hi h

/-- Settles O50: of what a step can do, only reset and `SP.CLEAR` touch a faulted parser. -/
theorem faultStaysUntilClear : Obligations.FaultStaysUntilClear := by
  intro s t hf h
  obtain ⟨-, hs⟩ | ⟨rest, hin, -⟩ | ⟨w, rest, i, hin, hw, hs⟩ | ⟨rest, hs⟩ := step_cases s
  · obtain rfl := Host.Outcome.next.inj (h.symm.trans hs)
    exact .inl rfl
  · exact .inr (.inl ⟨rest, hin⟩)
  · by_cases hc : i = .spClear
    · exact .inr (.inr ⟨w, rest, hin, hc ▸ hw⟩)
    · rw [hs] at h
      exact .inl (exec_spRegs_of_faulted (s := takeEvent rest s) hf hc h)
  · obtain rfl := Host.Outcome.next.inj (h.symm.trans hs)
    exact .inl rfl

/-! ### The frame of the buffer (R52) -/

/-- What a command can do to the bytes buffered: leave them, add one at the end, take some off the front, or discard
them. -/
inductive BufferMove : Instr → SpRegs → SpRegs → Prop
  | same {i : Instr} {g g' : SpRegs} (hc : i ≠ .spClear) (hbuf : g'.buf = g.buf) (hoff : g'.offset = g.offset) :
      BufferMove i g g'
  | added (b : Byte) {g g' : SpRegs} (hbuf : g'.buf = g.buf ++ [b]) : BufferMove (.spPush b) g g'
  | takenOff {i : Instr} {g g' : SpRegs} (taken : List Byte) (hi : i = .spDecode1 ∨ i = .spDecodeall)
      (hbuf : g.buf = taken ++ g'.buf) (hoff : g'.offset = g.offset + BitVec.ofNat 64 taken.length) : BufferMove i g g'
  | discarded {g g' : SpRegs} (hbuf : g'.buf = []) : BufferMove .spClear g g'

theorem SpMove.bufferMove {i : Instr} {g g' : SpRegs} {r : Response} (hm : SpMove i g g' r) : BufferMove i g g' := by
  cases hm with
  | refused _ hc => exact .same hc rfl rfl
  | pushed b => exact .added b rfl
  | drained hi hbuf => exact .takenOff _ hi hbuf rfl
  | verified => exact .same (by simp) rfl rfl
  | ended => exact .same (by simp) rfl rfl
  | cleared => exact .discarded rfl
  | modeSet => exact .same (by simp) rfl rfl

section
variable {i : Instr} {b : Byte} {g g' : SpRegs}

theorem BufferMove.buf_eq (hm : BufferMove i g g') (hpush : ∀ b, i ≠ .spPush b) (hone : i ≠ .spDecode1)
    (hall : i ≠ .spDecodeall) (hclear : i ≠ .spClear) : g'.buf = g.buf := by
  cases hm with
  | same _ hbuf _ => exact hbuf
  | added b _ => exact absurd rfl (hpush b)
  | takenOff _ hi _ _ => exact (hi.elim hone hall).elim
  | discarded _ => exact absurd rfl hclear

theorem BufferMove.of_push (hm : BufferMove (.spPush b) g g') : g'.buf = g.buf ∨ g'.buf = g.buf ++ [b] := by
  cases hm with
  | same _ hbuf _ => exact .inl hbuf
  | added _ hbuf => exact .inr hbuf
  | takenOff _ hi _ _ => simp at hi

theorem BufferMove.of_decode (hm : BufferMove i g g') (hi : i = .spDecode1 ∨ i = .spDecodeall) :
    ∃ taken, g.buf = taken ++ g'.buf ∧ g'.offset = g.offset + BitVec.ofNat 64 taken.length := by
  cases hm with
  | same _ hbuf hoff => exact ⟨[], hbuf.symm, by simpa using hoff⟩
  | added _ _ => simp at hi
  | takenOff taken _ hbuf hoff => exact ⟨taken, hbuf, hoff⟩
  | discarded _ => simp at hi

theorem BufferMove.of_clear (hm : BufferMove .spClear g g') : g'.buf = [] := by
  cases hm with
  | same hc _ _ => exact absurd rfl hc
  | takenOff _ hi _ _ => simp at hi
  | discarded hbuf => exact hbuf

end

/-- Every command makes one of the moves of the buffer. -/
theorem bufferMove_of_exec {i : Instr} {s t : State} (h : exec i s = .next t) :
    BufferMove i s.spRegs t.spRegs := by
  by_cases hi : unitOf i = .sp
  · obtain ⟨r, ho⟩ := exec_response h
    exact (spMove_of_exec hi h ho).bufferMove
  · have hregs := exec_spRegs_of_other_unit hi h
    exact .same (by rintro rfl; exact hi rfl) (congrArg SpRegs.buf hregs) (congrArg SpRegs.offset hregs)

/-- Settles O58: the moves of the buffer, read index by index. -/
theorem bufferFrame : Obligations.BufferFrame := by
  intro i s t h
  have hm := bufferMove_of_exec h
  refine ⟨fun hpush hone hall hclear k => congrArg (·[k]?) (hm.buf_eq hpush hone hall hclear), ?_,
    fun hi => ?_, ?_⟩
  · rintro b rfl
    obtain hbuf | hbuf : t.spBuf = s.spBuf ∨ t.spBuf = s.spBuf ++ [b] := hm.of_push
    · exact ⟨fun k _ => congrArg (·[k]?) hbuf, fun hne => absurd (congrArg List.length hbuf) hne⟩
    · refine ⟨fun k hk => ?_, fun _ => ?_⟩
      · rw [readBuf, hbuf, readBuf, List.getElem?_append]
        split
        · rfl
        · rw [List.getElem?_eq_none, List.getElem?_eq_none]
          · omega
          · simp; omega
      · rw [readBuf, hbuf, List.getElem?_concat_length]
  · obtain ⟨taken, hbuf, hoff⟩ : ∃ taken, s.spBuf = taken ++ t.spBuf ∧
      t.spOffset = s.spOffset + BitVec.ofNat 64 taken.length := hm.of_decode hi
    refine ⟨taken.length, by simp [hbuf], hoff, fun k => ?_⟩
    rw [readBuf, readBuf, hbuf, List.getElem?_append_right (Nat.le_add_left _ _), Nat.add_sub_cancel]
  · rintro rfl k
    have hbuf : t.spBuf = [] := hm.of_clear
    rw [readBuf, hbuf, List.getElem?_nil]

/-! ### The stream is conserved (R64, R169) -/

/-- What went into the parser, `before` and then `pushed`, is the frames `delivered` tells the payloads of, and then
what is buffered; the cursor has moved by the frames from `start`. -/
def Conserves (m : MaxLen) (before : List Byte) (start : U64) (pushed : List Byte) (delivered : List (List Byte))
    (g : SpRegs) : Prop :=
  ∃ frames : List (List Byte), before ++ pushed = frames.flatten ++ g.buf ∧ (∀ f ∈ frames, IsFrame m.val f) ∧
    delivered = frames.map framePayload ∧ g.offset = start + BitVec.ofNat 64 frames.flatten.length

/-- The byte a command adds to the input stream (R64). -/
def acceptedByte : Instr → Response → List Byte
  | .spPush b, r => if r.status = .ok then [b] else []
  | _, _ => []

theorem acceptedByte_of_ne_push {i : Instr} (h : ∀ b, i ≠ .spPush b) (r : Response) : acceptedByte i r = [] := by
  cases i with
  | spPush b => exact absurd rfl (h b)
  | _ => rfl

theorem ne_ok_of_refused {st : Status} (h : st.kind = .refused) : st ≠ .ok := by
  rintro rfl
  simp [Status.kind] at h

theorem acceptedByte_of_ne_ok {r : Response} (h : r.status ≠ .ok) (i : Instr) : acceptedByte i r = [] := by
  cases i with
  | spPush b => exact if_neg h
  | _ => rfl

theorem pushedBytes_snoc (xs : List (Instr × Response)) {i : Instr} (r : Response) (hc : i ≠ .spClear) :
    pushedBytes (xs ++ [(i, r)]) = pushedBytes xs ++ acceptedByte i r := by
  by_cases hp : ∃ b, i = .spPush b
  · obtain ⟨b, rfl⟩ := hp
    exact pushedBytes_push xs b r
  · have hp' : ∀ b, i ≠ .spPush b := fun b hb => hp ⟨b, hb⟩
    rw [acceptedByte_of_ne_push hp', List.append_nil, pushedBytes_other xs r hc hp']

/-- Every move but `SP.CLEAR` conserves the stream. -/
theorem Conserves.move {before : List Byte} {start : U64} {pushed : List Byte} {delivered : List (List Byte)}
    {i : Instr} {g g' : SpRegs} {r : Response} (h : Conserves g.maxLen before start pushed delivered g)
    (hm : SpMove i g g' r) (hc : i ≠ .spClear) :
    Conserves g.maxLen before start (pushed ++ acceptedByte i r) (delivered ++ r.records) g' := by
  obtain ⟨frames, hbuf, hframes, hrec, hoff⟩ := h
  cases hm with
  | @refused _ _ st _ hk =>
    have hnone := acceptedByte_of_ne_ok (r := Response.bare st) (ne_ok_of_refused hk) i
    exact ⟨frames, by simpa [hnone] using hbuf, hframes, by simpa using hrec, hoff⟩
  | pushed b _ v hroom =>
    refine ⟨frames, ?_, hframes, by simpa using hrec, hoff⟩
    simp [acceptedByte, ← List.append_assoc, hbuf]
  | @drained _ _ more left st hi hbuf' hmore hk =>
    have hnone := acceptedByte_of_ne_push (i := i) (by rintro b rfl; simp at hi) (drainedResponse more st)
    refine ⟨frames ++ more, ?_, List.forall_mem_append.2 ⟨hframes, hmore⟩, ?_, ?_⟩
    · rw [hnone, List.append_nil, hbuf, hbuf', List.flatten_append, List.append_assoc]
    · rw [hrec, List.map_append]
      rfl
    · simp [hoff, BitVec.ofNat_add, BitVec.add_assoc]
  | verified _ hk hnone =>
    exact ⟨frames, by simpa [acceptedByte] using hbuf, hframes, by simpa [hnone] using hrec, hoff⟩
  | ended => exact ⟨frames, by simpa [acceptedByte] using hbuf, hframes, by simpa using hrec, hoff⟩
  | cleared => exact absurd rfl hc
  | modeSet => exact ⟨frames, by simpa [acceptedByte] using hbuf, hframes, by simpa using hrec, hoff⟩

/-- Every sequence that ran conserves the stream since its last `SP.CLEAR`. -/
theorem conserves_of_ran (cs : List Instr) (s : State) : ∀ {rs t}, Ran cs s rs t →
    t.maxLen = s.maxLen ∧
    Conserves s.maxLen (if .spClear ∈ cs then [] else s.spBuf) (if .spClear ∈ cs then 0 else s.spOffset)
      (pushedBytes (cs.zip rs)) (payloadOutput (sinceClear (cs.zip rs))) t.spRegs := by
  induction cs using List.reverseRecOn with
  | nil =>
    intro rs t h
    obtain ⟨rfl, rfl⟩ := h.det (Ran.nil s)
    exact ⟨rfl, [], by simp [State.spRegs], by simp, rfl, by simp [State.spRegs]⟩
  | append_singleton cs i ih =>
    intro rs t h
    obtain ⟨u, r, rs', hran, hi, ho, rfl⟩ := h.unsnoc
    obtain ⟨hmax, hcons⟩ := ih hran
    refine ⟨(exec_maxLen_eq hi).trans hmax, ?_⟩
    rw [zip_snoc i r hran.length_eq]
    by_cases hc : i = .spClear
    · subst hc
      obtain rfl : emit (clearParser u) (Response.bare .ok) = t := Host.Outcome.next.inj hi
      rw [pushedBytes_clear, sinceClear_clear]
      exact ⟨[], by simp [State.spRegs], by simp, rfl, by simp [State.spRegs]⟩
    · have hmem : .spClear ∈ cs ++ [i] ↔ .spClear ∈ cs := by simp [Ne.symm hc]
      simp only [hmem]
      rw [pushedBytes_snoc _ r hc, sinceClear_snoc _ r hc, payloadOutput_snoc]
      by_cases hsp : unitOf i = .sp
      · have hmove := spMove_of_exec hsp hi ho
        rw [if_pos hsp]
        have hmax' : s.maxLen = u.spRegs.maxLen := hmax.symm
        rw [hmax'] at hcons ⊢
        exact hcons.move hmove hc
      · rw [if_neg hsp, List.append_nil, exec_spRegs_of_other_unit hsp hi,
          acceptedByte_of_ne_push (by rintro b rfl; exact hsp (unitOf_spPush b)), List.append_nil]
        exact hcons

/-- Settles O53: `conserves_of_ran`. -/
theorem parserConservesStream : Obligations.ParserConservesStream := by
  intro cs s rs t h
  obtain ⟨-, hcons⟩ := conserves_of_ran cs s h
  exact hcons

end Sys2Proof.Machine
end

section
/-! Records through the parser (spec/42_stream_parser.md R165, R166). One record is pushed byte by byte and decoded. A
stream is fed by induction on its bytes: `Feeding` says that what is buffered and what is still to come are whole
records, which `SP.DECODEALL` keeps (`Feeding.drain`) because a record's frame is found alike in either. -/

namespace Sys2Proof.Machine

/-! ### One record (R165) -/

theorem maxLen_lt (s : State) : s.maxLen.val < 2 ^ 64 := by
  have := s.maxLen.isLt
  omega

/-- Bytes there is room for are all accepted, and stand behind what was buffered (R152). -/
theorem ran_spFeed {bs : List Byte} {s : State} (herr : s.spErr = 0) (heoi : s.spEoi = false)
    (hroom : s.spBuf.length + bs.length ≤ s.bufCap) :
    ∃ rs, Ran (spFeed bs) s rs { s with spBuf := s.spBuf ++ bs, outbox := s.outbox ++ rs } ∧
      ∀ r ∈ rs, r.status = .ok := by
  induction bs generalizing s with
  | nil => exact ⟨[], by simpa [spFeed] using Ran.nil s, by simp⟩
  | cons b bs ih =>
    rw [List.length_cons] at hroom
    have hpush := exec_spPush_accepted herr heoi (by omega) b
    have hroom' : (s.spBuf ++ [b]).length + bs.length ≤ s.bufCap := by
      rw [List.length_append, List.length_singleton]
      omega
    obtain ⟨rs, hran, hok⟩ := ih (s := { s with
      spBuf := s.spBuf ++ [b], outbox := s.outbox ++ [⟨.ok, countU64 (s.spBuf ++ [b]), [], []⟩] }) herr heoi hroom'
    exact ⟨_, by simpa [spFeed] using Ran.cons hpush rfl hran, List.forall_mem_cons.2 ⟨rfl, hok⟩⟩

section
variable {s : State} {p : List Byte}

/-- A parser that holds one record and nothing else finds it whole. -/
theorem frame_of_holds_record (hp : p.length ≤ s.maxLen.val) (hbuf : s.spBuf = encodeRecord p) :
    frame s.maxLen.val s.spBuf = .whole p.length := by
  rw [hbuf, ← encodeRecord_length_sub]
  exact isFrame_encodeRecord hp (maxLen_lt s)

theorem exec_spVerify_record (herr : s.spErr = 0) (hp : p.length ≤ s.maxLen.val) (hbuf : s.spBuf = encodeRecord p) :
    exec .spVerify s = .next (emit s ⟨.ok, BitVec.ofNat 64 (16 + p.length), [], []⟩) := by
  rw [exec_spVerify_whole herr (frame_of_holds_record hp hbuf), hbuf, verify_encodeRecord]
  rfl

theorem exec_spDecode1_record (herr : s.spErr = 0) (hp : p.length ≤ s.maxLen.val) (hbuf : s.spBuf = encodeRecord p) :
    exec .spDecode1 s = .next { s with
      spBuf := [], spOffset := s.spOffset + BitVec.ofNat 64 (16 + p.length)
      outbox := s.outbox ++ [⟨.ok, BitVec.ofNat 64 (16 + p.length), [], [p]⟩] } := by
  have hgood : verify s.spBuf p.length = .good := hbuf ▸ verify_encodeRecord p
  have hdrop : (encodeRecord p).drop (16 + p.length) = [] := List.drop_of_length_le (encodeRecord_length p).le
  rw [exec_spDecode1, decode1_deliver herr (frame_of_holds_record hp hbuf) fun _ => hgood, deliver, consume, hbuf,
    payloadField_encodeRecord, hdrop]
  rfl

end

/-- Settles O51: the record is fed (`ran_spFeed`), and is then found whole and good. -/
theorem recordRoundTrip : Obligations.RecordRoundTrip := by
  intro p s hp herr heoi hbuf
  have hfit : p.length ≤ s.maxLen.val := by rwa [bufCap_eq, Nat.add_sub_cancel] at hp
  have hroom : s.spBuf.length + (encodeRecord p).length ≤ s.bufCap := by
    rw [hbuf, encodeRecord_length, bufCap_eq, List.length_nil]
    omega
  obtain ⟨rs, hfeed, hok⟩ := ran_spFeed herr heoi hroom
  rw [hbuf, List.nil_append] at hfeed
  have hverify := exec_spVerify_record (p := p)
    (s := { s with spBuf := encodeRecord p, outbox := s.outbox ++ rs }) herr hfit rfl
  have hdecode := exec_spDecode1_record (p := p) (s := emit
    { s with spBuf := encodeRecord p, outbox := s.outbox ++ rs }
    ⟨.ok, BitVec.ofNat 64 (16 + p.length), [], []⟩) herr hfit rfl
  exact ⟨rs, _, hfeed.append (Ran.cons hverify rfl (Ran.cons hdecode rfl (Ran.nil _))), hok, rfl, herr⟩

/-! ### A stream of records (R166) -/

section
variable {m : Nat} {p left more rest : List Byte}

/-- A record at the front is found whole, whatever follows. -/
theorem frame_record_append (hp : p.length ≤ m) (hm : m < 2 ^ 64) (tail : List Byte) :
    frame m (encodeRecord p ++ tail) = .whole p.length := by
  rw [(isFrame_encodeRecord hp hm).frame_append, encodeRecord_length_sub]

/-- A record at the front is found good, whatever follows. -/
theorem verify_record_append (p tail : List Byte) : verify (encodeRecord p ++ tail) p.length = .good := by
  rw [verify_append (encodeRecord_length p).ge, verify_encodeRecord]

/-- The front part of a record lacks bytes. -/
theorem frame_of_cut_record (hp : p.length ≤ m) (hm : m < 2 ^ 64) (hrec : encodeRecord p = left ++ more)
    (hmore : more ≠ []) : frame m left = .short ∨ ∃ l, frame m left = .incomplete l := by
  by_cases h8 : left.length < 8
  · exact .inl ((frame_short_iff m left).2 h8)
  · obtain ⟨-, hlen, -⟩ := (isFrame_iff m _).1 (isFrame_encodeRecord hp hm)
    have htotal := congrArg List.length hrec
    have hpos := List.length_pos_of_ne_nil hmore
    rw [encodeRecord_length_sub, hrec, List.take_append_of_le_length (not_lt.1 h8)] at hlen
    rw [encodeRecord_length, List.length_append] at htotal
    exact .inr ⟨p.length, (frame_incomplete_iff m left _).2 ⟨not_lt.1 h8, hlen, hp, by omega⟩⟩

/-- The front part of a stream holds its first record, or lacks bytes. -/
theorem first_record_or_lacks (hp : p.length ≤ m) (hm : m < 2 ^ 64) (h : left ++ more = encodeRecord p ++ rest) :
    (∃ left', left = encodeRecord p ++ left') ∨ frame m left = .short ∨ ∃ l, frame m left = .incomplete l := by
  obtain ⟨tail, hrec, -⟩ | ⟨left', hleft, -⟩ := List.append_eq_append_iff.1 h
  · by_cases htail : tail = []
    · exact .inl ⟨[], by rw [hrec, htail]; simp⟩
    · exact .inr (frame_of_cut_record hp hm hrec htail)
  · exact .inl ⟨left', hleft⟩

/-- A frame that begins a stream of records is its first record. -/
theorem IsFrame.eq_first_record {f : List Byte} (hf : IsFrame m f) (hp : p.length ≤ m) (hm : m < 2 ^ 64)
    (h : f ++ more = encodeRecord p ++ rest) : f = encodeRecord p ∧ more = rest := by
  have hrec := isFrame_encodeRecord hp hm
  have hboth := (hf.frame_append more).symm.trans (h ▸ hrec.frame_append rest)
  have hlen : f.length = (encodeRecord p).length := by
    have h16 := hf.sixteen_le
    have h16' := hrec.sixteen_le
    have := Frame.whole.inj hboth
    omega
  exact List.append_inj h hlen

end

/-- Frames that begin a stream of records are its first records. -/
theorem frames_eq_first_records {m : Nat} (hm : m < 2 ^ 64) {frames ps : List (List Byte)} {tail : List Byte}
    (hframes : ∀ f ∈ frames, IsFrame m f) (hps : ∀ p ∈ ps, p.length ≤ m)
    (h : frames.flatten ++ tail = ps.flatMap encodeRecord) :
    ∃ done ps', ps = done ++ ps' ∧ frames = done.map encodeRecord ∧ tail = ps'.flatMap encodeRecord := by
  induction frames generalizing ps with
  | nil => exact ⟨[], ps, rfl, rfl, h⟩
  | cons f frames ih =>
    obtain ⟨hf, hmore⟩ := List.forall_mem_cons.1 hframes
    cases ps with
    | nil =>
      have := hf.sixteen_le
      have := congrArg List.length h
      simp only [List.flatten_cons, List.length_append, List.flatMap_nil, List.length_nil] at this
      omega
    | cons p ps =>
      obtain ⟨hp, hps⟩ := List.forall_mem_cons.1 hps
      rw [List.flatten_cons, List.append_assoc, List.flatMap_cons] at h
      obtain ⟨rfl, hnext⟩ := hf.eq_first_record hp hm h
      obtain ⟨done, ps', rfl, rfl, htail⟩ := ih hmore hps hnext
      exact ⟨p :: done, ps', rfl, rfl, htail⟩

/-- An unfaulted parser without end of input, in the middle of a stream: what is buffered and the bytes `rest` still to
come are the records of `ps`, each of which fits the buffer. -/
structure Feeding (s : State) (rest : List Byte) (ps : List (List Byte)) : Prop where
  ready : s.spErr = 0
  noEnd : s.spEoi = false
  fits : ∀ p ∈ ps, p.length ≤ s.maxLen.val
  stream : s.spBuf ++ rest = ps.flatMap encodeRecord

section
variable {s : State} {rest : List Byte} {ps : List (List Byte)}

/-- A parser in the middle of a stream lacks bytes, or its buffer begins with the next record. -/
theorem Feeding.lacks_or_first_record (h : Feeding s rest ps) :
    LacksBytes s ∨ ∃ p ∈ ps, ∃ tail, s.spBuf = encodeRecord p ++ tail := by
  have hstream := h.stream
  cases ps with
  | nil =>
    obtain ⟨hbuf, -⟩ := List.append_eq_nil_iff.1 hstream
    exact .inl (.inl (by rw [hbuf]; rfl))
  | cons p ps =>
    have hp := h.fits p (by simp)
    rw [List.flatMap_cons] at hstream
    obtain hbuf | hlack := first_record_or_lacks hp (maxLen_lt s) hstream
    · exact .inr ⟨p, by simp, hbuf⟩
    · exact .inl hlack

/-- In the middle of a stream a decode does not stop but for want of bytes. -/
theorem Feeding.stopStatus (h : Feeding s rest ps) {st : Status} (hstop : StopStatus s s.spBuf st) :
    LacksBytes s ∧ st = .noRecord := by
  obtain hlack | ⟨p, hp, tail, hbuf⟩ := h.lacks_or_first_record
  · have hst := (stopStatus_of_lacking hlack).1 hstop
    rw [h.noEnd] at hst
    exact ⟨hlack, by simpa using hst⟩
  · have hwhole := frame_record_append (h.fits p hp) (maxLen_lt s) tail
    simp [StopStatus, hbuf, hwhole, verify_record_append] at hstop

/-- A run of decodes in the middle of a stream delivers the next payloads and leaves the parser lacking bytes. -/
theorem Feeding.drain (h : Feeding s rest ps) : ∃ done ps', ps = done ++ ps' ∧
    (decodeAll s).2.records = done ∧ Feeding (decodeAll s).1 rest ps' ∧
      LacksBytes (decodeAll s).1 := by
  obtain ⟨frames, left, st, htake, hstop, hall⟩ := decodeAll_drains s h.ready
  have hstream := h.stream
  rw [htake.buffer, List.append_assoc] at hstream
  obtain ⟨done, ps', rfl, rfl, hrest⟩ := frames_eq_first_records (maxLen_lt s) htake.isFrame h.fits hstream
  have hfits : ∀ p ∈ ps', p.length ≤ s.maxLen.val := fun p hp => h.fits p (List.mem_append_right done hp)
  have hleft : Feeding { s with spBuf := left } rest ps' := ⟨h.ready, h.noEnd, hfits, hrest⟩
  obtain ⟨hlack, rfl⟩ := hleft.stopStatus hstop
  have hpayloads : (done.map encodeRecord).map framePayload = done := by
    rw [List.map_map]
    exact List.map_id'' framePayload_encodeRecord done
  rw [hall]
  exact ⟨done, ps', rfl, hpayloads, ⟨rfl, h.noEnd, hfits, hrest⟩, hlack⟩

/-- When nothing is to come and the parser lacks bytes, all records have been delivered. -/
theorem Feeding.finished (h : Feeding s [] ps) (hlack : LacksBytes s) : ps = [] ∧ s.spBuf = [] := by
  have hstream := h.stream
  rw [List.append_nil] at hstream
  cases ps with
  | nil => exact ⟨rfl, hstream⟩
  | cons p ps =>
    have hwhole := frame_record_append (h.fits p (by simp)) (maxLen_lt s) (ps.flatMap encodeRecord)
    rw [LacksBytes, hstream, List.flatMap_cons, hwhole] at hlack
    simp at hlack

/-- A byte of the stream there is room for. -/
theorem Feeding.push {b : Byte} (h : Feeding s (b :: rest) ps) (hroom : s.spBuf.length < s.bufCap) :
    ∃ t, exec (.spPush b) s = .next t ∧ t.outbox = s.outbox ++ [⟨.ok, countU64 (s.spBuf ++ [b]), [], []⟩] ∧
      Feeding t rest ps :=
  ⟨_, exec_spPush_accepted h.ready h.noEnd hroom b, rfl, h.ready, h.noEnd, h.fits, by simpa using h.stream⟩

end

/-! ### The host's procedure -/

section
variable {s t u : State} {b : Byte} {rest : List Byte} {ps : List (List Byte)}

theorem feedByte_of_push {r : Response} (h : exec (.spPush b) s = .next t) (ho : t.outbox = s.outbox ++ [r])
    (hr : r.status ≠ .full) : feedByte b s = .next t := by
  simp [feedByte, h, ho, hr]

/-- On FULL the host decodes and pushes again. -/
theorem feedByte_of_full (h : exec (.spPush b) s = answer (refuse .full s)) :
    feedByte b s = runCmds [.spDecodeall, .spPush b] (emit s (Response.bare .full)) := by
  simp [feedByte, h, answer_eq, refuse]

/-- One byte of the stream: the records delivered on the way, if any, are the next ones, and the stream goes on. -/
theorem Feeding.next_byte (h : Feeding s (b :: rest) ps) : ∃ t rs done ps', feedByte b s = .next t ∧
    t.outbox = s.outbox ++ rs ∧ rs.flatMap Response.records = done ∧ ps = done ++ ps' ∧ Feeding t rest ps' := by
  by_cases hroom : s.spBuf.length < s.bufCap
  · obtain ⟨t, hpush, hout, hfeed⟩ := h.push hroom
    exact ⟨t, _, [], ps, feedByte_of_push hpush hout (by simp), hout, rfl, rfl, hfeed⟩
  · have hfull := exec_spPush_full h.ready h.noEnd (not_lt.1 hroom) b
    have hrefused : Feeding (emit s (Response.bare .full)) (b :: rest) ps := ⟨h.ready, h.noEnd, h.fits, h.stream⟩
    obtain ⟨done, ps', rfl, hrec, hfeed, hlack⟩ := hrefused.drain
    have hdecode := exec_spDecodeall (emit s (Response.bare .full))
    generalize decodeAll (emit s (Response.bare .full)) = d at *
    obtain ⟨v, r⟩ := d
    have hafter : Feeding { v with outbox := s.outbox ++ [Response.bare .full] ++ [r] } (b :: rest) ps' :=
      ⟨hfeed.ready, hfeed.noEnd, hfeed.fits, hfeed.stream⟩
    obtain ⟨t, hpush, hout, hgoes⟩ := hafter.push (LacksBytes.room hlack)
    refine ⟨t, [Response.bare .full, r, _], done, ps', ?_, by simpa using hout, by simpa using hrec, rfl, hgoes⟩
    rw [feedByte_of_full hfull, runCmds_cons _ hdecode, emit_outbox, runCmds_cons _ hpush, runCmds_nil]

/-- The host's procedure delivers the records still to come (R166). -/
theorem Feeding.delivers {bytes : List Byte} (h : Feeding s bytes ps) :
    ∃ t, Fed bytes s ps t ∧ t.spBuf = [] ∧ t.spErr = 0 := by
  induction bytes generalizing s ps with
  | nil =>
    obtain ⟨done, ps', rfl, hrec, hfeed, hlack⟩ := h.drain
    obtain ⟨rfl, hbuf⟩ := hfeed.finished hlack
    exact ⟨_, ⟨exec_spDecodeall s, _, rfl, by simpa using hrec⟩, hbuf, hfeed.ready⟩
  | cons b rest ih =>
    obtain ⟨u, rs, done, ps', hbyte, hout, hrec, rfl, hfeed⟩ := h.next_byte
    obtain ⟨t, ⟨hrest, rs', hout', hrec'⟩, hbuf, herr⟩ := ih hfeed
    refine ⟨t, ⟨?_, rs ++ rs', ?_, ?_⟩, hbuf, herr⟩
    · simp only [feedStream, hbyte, hrest]
    · rw [hout', hout, List.append_assoc]
    · rw [List.flatMap_append, hrec, hrec']

end

/-- Settles O52: `Feeding.delivers` from an empty buffer. -/
theorem streamRoundTrip : Obligations.StreamRoundTrip := by
  intro ps s hps herr heoi hbuf
  have hfits : ∀ p ∈ ps, p.length ≤ s.maxLen.val := fun p hp => by
    simpa only [bufCap_eq, Nat.add_sub_cancel] using hps p hp
  exact Feeding.delivers ⟨herr, heoi, hfits, by rw [hbuf, List.nil_append]⟩

end Sys2Proof.Machine
end
